-- ==== Sys2Proof/Word.lean ====
section
/-! DEFINITION. The widths of the block (spec/00_scope.md R5, R6): 64-bit registers, 64-bit addresses, 8-bit bytes. -/

namespace Sys2Proof

/-- A 64-bit value: a Host register, the accumulator, a chunk word (R5). -/
abbrev Word := BitVec 64

/-- An input-memory byte address, `ADDR_W` = 64 (R6).  Sums of addresses wrap modulo 2^64 (R40). -/
abbrev Addr := BitVec 64

/-- One byte of input memory. -/
abbrev Byte := BitVec 8

/-- `zext_64(v)`: `v` as a 64-bit value with zero high bits (R8). -/
abbrev zext64 {n : Nat} (v : BitVec n) : Word := v.setWidth 64

end Sys2Proof
end

