-- ==== Sys2Proof/Config.lean ====
section
/-! DEFINITION. The block's parameters (spec/00_scope.md R6), as plain data that a State carries and no step changes, and
the free values: constants with no body, of which nothing can be proved but that they have a value. -/

namespace Sys2Proof

/-- What a read of a byte of input memory at an address meets. -/
inductive AddrKind where
  /-- Ordinary memory, where `mem_readable` holds (R6, R35). -/
  | ordinary
  /-- `mem_readable` is false: an Engine read does not complete, BUS_ERROR (R35, R106). -/
  | unreadable
  /-- A device whose reads have side effects: outside the block's contract, undescribed
  (spec/20_memory.md R43, spec/93_implementation_defined.md U12). -/
  | device
  deriving DecidableEq, Repr

/-- The addresses `first` to `last`, both included, and what a read there meets. -/
structure Region where
  first : Addr
  last  : Addr
  kind  : AddrKind
  deriving DecidableEq, Repr

/-- The parameters the model must not fix (R6). -/
structure Params where
  /-- `mem_readable`, as regions of the address space: an address has the kind of the FIRST region that holds it and is
  ordinary memory where none does.  Every predicate on 64-bit addresses is some such list (log entry 6). -/
  regions : List Region
  /-- `FAST_CONTRACT_ONLY` (R6, R90). -/
  fastContractOnly : Bool
  deriving DecidableEq, Repr

/-- `FAST_CONTRACT_ONLY` as the reset state has it: OPEN (spec/92_eei_decisions.md D9), so it has no body (log entry 9). -/
opaque Config.fastContractOnly : Bool

/-- `draw32()` (R9, R90): the n-th free 32-bit draw, under no law (log entry 10). -/
opaque Config.draw32 : Nat → BitVec 32

/-- The n-th byte that a Host memory read returns at an address that is not readable: the spec states no value
(log entry 12). -/
opaque Config.freeByte : Nat → Byte

end Sys2Proof
end

