-- ==== Sys2Proof/Syntax.lean ====
section
/-! DEFINITION. The block's instruction set: its five commands (spec/30_encoding.md R54, spec/opcode_table.json).
A command has no operand field (R53): its address and its length are the registers SRC_ADDR and SRC_LEN, and a checked
command's width W is part of which command it is. -/

namespace Sys2Proof

/-- The commands of R54, one constructor per row of the opcode table. -/
inductive Instr where
  /-- PARSE_FAST, the source's `parse_fast` (spec/41_fast_parser.md R92). -/
  | parseFast
  /-- PARSE_CHECKED8 (spec/40_checked_parser.md R70). -/
  | parseChecked8
  /-- PARSE_CHECKED16 (R71). -/
  | parseChecked16
  /-- PARSE_CHECKED32, the source's `parse_checked<uint32>` (R72). -/
  | parseChecked32
  /-- PARSE_CHECKED64, the source's `parse_checked<uint64>` (R73). -/
  | parseChecked64
  deriving DecidableEq, Repr

end Sys2Proof
end

