-- ==== Sys2Proof/WellFormed.lean ====
section
/-! DEFINITION. Well-formed terms.  A command has no field that could be out of range, so every `Instr` is well formed
(spec/30_encoding.md R53, R57); the terms that can be ill formed are the parameters. -/

namespace Sys2Proof

/-- Every command is exactly one CMD value and has no operand field (R53, R57): nothing to check. -/
def Instr.wf : Instr → Bool
  | .parseFast      => true
  | .parseChecked8  => true
  | .parseChecked16 => true
  | .parseChecked32 => true
  | .parseChecked64 => true

/-- A region runs from its first address up to its last (it does not wrap). -/
def Region.wf (r : Region) : Bool := decide (r.first.toNat ≤ r.last.toNat)

/-- Every region is well formed. -/
def Params.wf (p : Params) : Bool := p.regions.all Region.wf

end Sys2Proof
end

