-- ==== Sys2Proof/Decode.lean ====
section
/-! DEFINITION. Decoding and encoding of CMD values (spec/30_encoding.md R51 to R63). -/

namespace Sys2Proof

/-- `OP`, bits [3:0] of a CMD value (R52). -/
def cmdOp (v : Word) : BitVec 4 := v.extractLsb' 0 4

/-- `WSEL`, bits [5:4] of a CMD value (R52). -/
def cmdWsel (v : Word) : BitVec 2 := v.extractLsb' 4 2

/-- The reserved bits [63:6] of a CMD value (R52). -/
def cmdReserved (v : Word) : BitVec 58 := v.extractLsb' 6 58

/-- Why a CMD value is BAD (R56).  All three end in BAD_COMMAND. -/
inductive DecodeReject where
  /-- A bit of [63:6] is set. -/
  | reservedBits
  /-- OP is neither 0x1 nor 0x2. -/
  | reservedOp (op : BitVec 4)
  /-- OP is 0x1 and WSEL is not 00. -/
  | fastWithWsel (wsel : BitVec 2)
  deriving DecidableEq, Repr

/-- The checked command that WSEL selects: W = 8 << WSEL (R51, R53). -/
def checkedOfWsel (wsel : BitVec 2) : Instr :=
  if wsel = 0 then .parseChecked8
  else if wsel = 1 then .parseChecked16
  else if wsel = 2 then .parseChecked32
  else .parseChecked64

/-- `Decode(v)` of R51, total, reading only `v`.  BAD is an error that says which test failed, in R51's order. -/
def decode (v : Word) : Except DecodeReject Instr :=
  if cmdReserved v ≠ 0 then .error .reservedBits
  else if cmdOp v = 1 then
    if cmdWsel v = 0 then .ok .parseFast else .error (.fastWithWsel (cmdWsel v))
  else if cmdOp v = 2 then .ok (checkedOfWsel (cmdWsel v))
  else .error (.reservedOp (cmdOp v))

/-- `Encode(c)`, the CMD value of R54 (R63). -/
def encode : Instr → Word
  | .parseFast      => 0x0000000000000001
  | .parseChecked8  => 0x0000000000000002
  | .parseChecked16 => 0x0000000000000012
  | .parseChecked32 => 0x0000000000000022
  | .parseChecked64 => 0x0000000000000032

/-- The mnemonic of a command, written alone with no operands (R58). -/
def mnemonic : Instr → String
  | .parseFast      => "PARSE_FAST"
  | .parseChecked8  => "PARSE_CHECKED8"
  | .parseChecked16 => "PARSE_CHECKED16"
  | .parseChecked32 => "PARSE_CHECKED32"
  | .parseChecked64 => "PARSE_CHECKED64"

/-- The 64-bit CMD value whose low `nbits` bits are those of `w` and whose other bits are 0.  A CMD value is one whole
64-bit register write (R15, R52), so it has no byte order: bit k of the table's number is bit k of the value. -/
def tableWord (nbits w : Nat) : Word := BitVec.ofNat 64 (w % 2 ^ nbits)

/-- What the decoder reads from an instruction whose bits the opcode table numbers as `w`; none where it refuses, and
none where a bit above the 64 of a CMD value is set. -/
def decodeTableWord (nbits w : Nat) : Option Instr :=
  if w % 2 ^ nbits < 2 ^ 64 then
    match decode (tableWord nbits w) with
    | .ok i    => some i
    | .error _ => none
  else none

end Sys2Proof
end

