-- ==== Sys2Proof/Machine/State.lean ====
section
/-! DEFINITION. The state of the block, of its input memory and of the Host at its port (spec/10_state.md), as plain data,
and the state right after reset (R30, R114). -/

namespace Sys2Proof.Machine

/-- STATUS.ERR, the completion codes of spec/60_exceptions.md R100.  Codes 5 to 7 are reserved and never produced. -/
inductive ErrCode where
  | none
  | invalidCharacter
  | overflow
  | badCommand
  | busError
  deriving DecidableEq, Repr

/-- MODE, the command family of the running or last command (R22). -/
inductive Mode where
  | fast
  | checked
  deriving DecidableEq, Repr

/-- W, the target width of a checked command: 8, 16, 32 or 64 bits (R22). -/
inductive Width where
  | w8
  | w16
  | w32
  | w64
  deriving DecidableEq, Repr

/-- The five Host registers by name (R15, R59). -/
inductive Reg where
  | cmd
  | srcAddr
  | srcLen
  | result
  | status
  deriving DecidableEq, Repr

/-- One step of the Host (R13, R33, R59).  A register access is the transaction (kind, offset, data) of
spec/30_encoding.md R52; an offset is a byte offset of any size (log entry 19). -/
inductive HostOp where
  /-- WR: a write of a 64-bit value to the register at a byte offset. -/
  | write (offset : Nat) (v : Word)
  /-- RD: a read of the register at a byte offset. -/
  | read (offset : Nat)
  /-- MEMW: a write of one byte of the input memory. -/
  | memWrite (a : Addr) (b : Byte)
  /-- A read of one byte of the input memory (R33). -/
  | memRead (a : Addr)
  /-- RESET: the reset event, taken by the Host (R112, R114). -/
  | reset
  /-- WAIT: one RD STATUS of the loop of R60; it stays the Host's next step until the value read has BUSY = 0. -/
  | wait
  deriving DecidableEq, Repr

/-- Whose step comes next: the three kinds of step of R13. -/
inductive Turn where
  | host
  | engine
  | reset
  deriving DecidableEq, Repr

/-- The input memory: (address, byte) pairs in the canonical form of `Memory.wf` (spec/20_memory.md R33, R34). -/
abbrev Memory := List Host.Cell

/-- The whole machine. -/
structure State where
  /-- SRC_ADDR (R17). -/
  srcAddr : Word
  /-- SRC_LEN (R18). -/
  srcLen : Word
  /-- RESULT (R19). -/
  result : Word
  /-- STATUS.BUSY (R20). -/
  busy : Bool
  /-- STATUS.DONE (R20). -/
  done : Bool
  /-- STATUS.ERR (R20). -/
  err : ErrCode
  /-- MODE (R22). -/
  mode : Mode
  /-- W (R22). -/
  width : Width
  /-- BASE, the copy of SRC_ADDR taken at command start (R22). -/
  base : Word
  /-- LEN, the copy of SRC_LEN taken at command start (R22). -/
  len : Word
  /-- IDX, the number of input bytes consumed so far (R22). -/
  idx : Word
  /-- ACC, the running accumulator (R22). -/
  acc : Word
  /-- The bytes the running or last command has consumed, first byte first: the ghost state from which `ok(s)` of
  spec/41_fast_parser.md R90 is known (log entry 11). -/
  consumed : List Byte
  /-- The input memory (R33, R34). -/
  mem : Memory
  /-- The parameters of spec/00_scope.md R6.  No step changes them. -/
  params : Params
  /-- The Host's remaining steps, in its program order (R47 (e)). -/
  host : List HostOp
  /-- Whose steps come next; any order is some such list (R13, log entry 1). -/
  turns : List Turn
  /-- The values the Host's reads have returned, the latest first (log entry 4). -/
  reads : List Word
  /-- How many free values have been drawn (log entry 10). -/
  draws : Nat
  deriving DecidableEq, Repr

/-- The block stops with no machine fault: every error is a completion code delivered by `finish`, after which the
machine goes on (spec/60_exceptions.md R100, R108).  So there is no constructor. -/
inductive Fault where
  deriving DecidableEq, Repr

/-- Why a step has no meaning. -/
inductive Refusal where
  /-- Raised by a refused arm of `exec` only, and no arm is refused: an instruction whose meaning is not written. Safe. -/
  | notModelled (mnemonic : String)
  /-- Raised by a read of input memory, the Engine's or the Host's, that meets a device region: "the model does not
  describe it" (R43; U12 says refuse). Safe: the machine stops where the hardware would go on. -/
  | deviceRead (a : Addr)
  deriving DecidableEq, Repr

/-- The state right after reset (R30, R114): every register of the block at the value R30 gives; no Host step, no turn and
no read yet; memory with nothing listed and every address ordinary memory, as the start states of
spec/95_test_vectors.md Part 3 have it (log entries 6 and 8); FAST_CONTRACT_ONLY open (log entry 9). -/
def State.reset : State where
  srcAddr  := 0
  srcLen   := 0
  result   := 0
  busy     := false
  done     := false
  err      := .none
  mode     := .fast
  width    := .w8
  base     := 0
  len      := 0
  idx      := 0
  acc      := 0
  consumed := []
  mem      := []
  params   := { regions := [], fastContractOnly := Config.fastContractOnly }
  host     := []
  turns    := []
  reads    := []
  draws    := 0

end Sys2Proof.Machine
end

