-- ==== Sys2Proof/Machine/Datapath.lean ====
section
/-! DEFINITION. The two datapath units as functions on values: the scalar digit accumulator, checked
(spec/40_checked_parser.md R64 to R67) and unchecked (spec/41_fast_parser.md R88), and the SWAR chunk processor
(R79 to R84). -/

namespace Sys2Proof.Machine

/-- `isDigit(b)`: 0x30 <= b <= 0x39 (R64). -/
def isDigit (b : Byte) : Bool := decide (0x30 ≤ b.toNat) && decide (b.toNat ≤ 0x39)

/-- The digit value `d = b - 0x30` of a digit byte (R64). -/
def digitValue (b : Byte) : Nat := b.toNat - 0x30

/-- `value(s)`: the first byte is the most significant digit, and the empty sequence has value 0
(spec/00_scope.md R11). -/
def value (bs : List Byte) : Nat := bs.foldl (fun v b => v * 10 + digitValue b) 0

/-- W as a number of bits (R22). -/
def Width.bits : Width → Nat
  | .w8  => 8
  | .w16 => 16
  | .w32 => 32
  | .w64 => 64

/-- `MAX_W = 2^W - 1` (R65). -/
def maxW (w : Width) : Nat := 2 ^ w.bits - 1

/-- `DIV_W = MAX_W / 10` (R65). -/
def divW (w : Width) : Nat := maxW w / 10

/-- `MOD_W = MAX_W % 10` (R65). -/
def modW (w : Width) : Nat := maxW w % 10

/-- `Accept_W(acc, d)`, tested before the multiply (R66). -/
def accepts (w : Width) (acc d : Nat) : Bool :=
  decide (acc < divW w) || (decide (acc = divW w) && decide (d ≤ modW w))

/-- `CheckedStep_W(acc, b)`: the digit test comes first, then the overflow test, then exact arithmetic (R67). -/
def checkedStep (w : Width) (acc : Word) (b : Byte) : Except ErrCode Word :=
  if isDigit b = false then .error .invalidCharacter
  else if accepts w acc.toNat (digitValue b) = false then .error .overflow
  else .ok (BitVec.ofNat 64 (acc.toNat * 10 + digitValue b))

/-- `FastStep(acc, b) = (acc * 10 + zext_64(b) - 0x30) mod 2^64`, unchecked (R88). -/
def fastStep (acc : Word) (b : Byte) : Word := acc * 10#64 + zext64 b - 0x30#64

/-- `BIAS64`, the byte 0x30 in every lane (R79). -/
def bias64 : Word := 0x3030303030303030#64

/-- Bias subtraction, one 64-bit subtraction: c0 (R80). -/
def swarBias (w : Word) : Word := w - bias64

/-- Stage 1, weights 10 and 1 into 16-bit lanes: c1 (R81). -/
def swarStage1 (c0 : Word) : Word := (c0 * 10#64 + (c0 >>> 8)) &&& 0x00FF00FF00FF00FF#64

/-- Stage 2, weights 100 and 1 into 32-bit lanes: c2 (R82). -/
def swarStage2 (c1 : Word) : Word := (c1 * 100#64 + (c1 >>> 16)) &&& 0x0000FFFF0000FFFF#64

/-- Stage 3, weights 10000 and 1 into the low 32 bits: c3 (R83). -/
def swarStage3 (c2 : Word) : Word := (c2 * 10000#64 + (c2 >>> 32)) &&& 0x00000000FFFFFFFF#64

/-- `SwarCollapse(w)`, computed on every word whether or not its bytes are digits (R84). -/
def swarCollapse (w : Word) : Word := swarStage3 (swarStage2 (swarStage1 (swarBias w)))

/-- Narrowing: ACC[31:0], zero-extended to 64 bits (R89). -/
def narrow32 (acc : Word) : Word := zext64 (acc.extractLsb' 0 32)

/-- The source's contract for `parse_fast` on an input: non-empty, all digits, and a value below 2^32 (R90). -/
def contractOk (bs : List Byte) : Bool :=
  decide (1 ≤ bs.length) && bs.all isDigit && decide (value bs < 2 ^ 32)

end Sys2Proof.Machine
end

