-- ==== Sys2Proof/Machine/Flags.lean ====
section
/-! DEFINITION. The status flags BUSY, DONE and ERR and the STATUS word they make (spec/10_state.md R20, R29). -/

namespace Sys2Proof.Machine

/-- The number of a completion code in STATUS.ERR (R20, spec/60_exceptions.md R100). -/
def ErrCode.code : ErrCode → BitVec 3
  | .none             => 0
  | .invalidCharacter => 1
  | .overflow         => 2
  | .badCommand       => 3
  | .busError         => 4

/-- STATUS as a Host read gives it: bit 0 BUSY, bit 1 DONE, bits [4:2] ERR, bits [63:5] zero (R20). -/
def State.statusWord (s : State) : Word :=
  (0 : BitVec 59) ++ s.err.code ++ BitVec.ofBool s.done ++ BitVec.ofBool s.busy

/-- The flags at a command's start: BUSY <- 1, DONE <- 0, ERR <- NONE (R26). -/
def State.flagsStarted (s : State) : State :=
  { s with busy := true, done := false, err := .none }

/-- The flags at a command's completion: BUSY <- 0, DONE <- 1, ERR <- err (R27). -/
def State.flagsFinished (s : State) (e : ErrCode) : State :=
  { s with busy := false, done := true, err := e }

end Sys2Proof.Machine
end

