-- ==== Sys2Proof/Machine/Memory.lean ====
section
/-! DEFINITION. The input memory as a canonical list of (address, byte) pairs (spec/20_memory.md R33, R34), and what a
read of one byte meets (R35). -/

namespace Sys2Proof.Machine

/-- What an address that memory does not list reads as: 0 ("all bytes readable and 0 unless written",
spec/95_test_vectors.md Part 3; DESIGN CHOICE, log entry 8). -/
def Memory.unlisted : Byte := 0

/-- The byte at a numeric address. -/
def Memory.readAt : Memory → Nat → Byte
  | [], _ => Memory.unlisted
  | (k, c) :: rest, n => if k = n then c else Memory.readAt rest n

/-- The byte that memory holds at `a` (R34). -/
def Memory.read (m : Memory) (a : Addr) : Byte := Memory.readAt m a.toNat

/-- Put one byte into the canonical list: the addresses stay strictly rising, and an address that gets the unlisted value
loses its entry. -/
def Memory.writeAt : Memory → Nat → Byte → Memory
  | [], n, b => if b = Memory.unlisted then [] else [(n, b)]
  | (k, c) :: rest, n, b =>
    if n < k then (if b = Memory.unlisted then (k, c) :: rest else (n, b) :: (k, c) :: rest)
    else if n = k then (if b = Memory.unlisted then rest else (n, b) :: rest)
    else (k, c) :: Memory.writeAt rest n b

/-- "A Host memory write of byte value x at address a sets the byte at a to x" (R34). -/
def Memory.write (m : Memory) (a : Addr) (b : Byte) : Memory := Memory.writeAt m a.toNat b

/-- The canonical form: addresses strictly rising and below 2^64, no entry equal to the unlisted value. -/
abbrev Memory.wf (m : Memory) : Prop :=
  m.Pairwise (fun c d => c.1 < d.1) ∧ ∀ c ∈ m, c.1 < 2 ^ 64 ∧ c.2 ≠ Memory.unlisted

/-- The kind of an address under a list of regions: that of the first region that holds it, else ordinary memory
(`mem_readable`, R6, R45). -/
def kindIn : List Region → Addr → AddrKind
  | [], _ => .ordinary
  | r :: rest, a => if r.first.toNat ≤ a.toNat ∧ a.toNat ≤ r.last.toNat then r.kind else kindIn rest a

/-- The kind of an address in a state. -/
def State.kindAt (s : State) (a : Addr) : AddrKind := kindIn s.params.regions a

/-- `mem_readable` (R6): the Engine's read of the byte at `a` completes. -/
def State.memReadable (s : State) (a : Addr) : Bool := s.kindAt a != .unreadable

end Sys2Proof.Machine
end

