-- ==== Sys2Proof/Machine/Operands.lean ====
section
/-! DEFINITION. How the Engine gets a command's input bytes: the addresses (spec/20_memory.md R40), the one-byte read
(R35) and the little-endian chunk read (R36, R37). -/

namespace Sys2Proof.Machine

/-- What a read primitive gives. -/
inductive ReadResult (α : Type) where
  /-- Every byte read completes. -/
  | value (v : α)
  /-- Some byte is not readable: `raise BusError` (R35). -/
  | unreadable
  /-- Some byte is in a device region (R43). -/
  | device (a : Addr)
  deriving DecidableEq, Repr

/-- The address of input byte `i` of the running command: (BASE + i) mod 2^64 (R40). -/
def State.inputAddr (s : State) (i : Word) : Addr := s.base + i

/-- `MemRead(a, 1)` (R35). -/
def State.memRead (s : State) (a : Addr) : ReadResult Byte :=
  match s.kindAt a with
  | .ordinary   => .value (s.mem.read a)
  | .unreadable => .unreadable
  | .device     => .device a

/-- Put one byte read in front of the reads of the bytes after it.  No order among the reads of a chunk can be seen (R37):
a device read refuses the whole, whichever byte it is; else one unreadable byte is enough for BUS_ERROR (R106). -/
def ReadResult.cons : ReadResult Byte → ReadResult (List Byte) → ReadResult (List Byte)
  | .device a, _            => .device a
  | .value _, .device a     => .device a
  | .unreadable, .device a  => .device a
  | .unreadable, .value _   => .unreadable
  | .unreadable, .unreadable => .unreadable
  | .value _, .unreadable   => .unreadable
  | .value b, .value bs     => .value (b :: bs)

/-- The one-byte reads of `n` bytes in a row from address `a`, addresses wrapping modulo 2^64. -/
def State.readBytes (s : State) (a : Addr) : Nat → ReadResult (List Byte)
  | 0     => .value []
  | n + 1 => (s.memRead a).cons (s.readBytes (a + 1) n)

/-- The little-endian word of a list of bytes, `sum over k of (b_k << 8k)` (R36, R37). -/
def leWord : List Byte → Word
  | []      => 0
  | b :: bs => zext64 b + (leWord bs <<< 8)

/-- The eight byte reads of `LoadLE64(a)` (R37); the chunk word is `leWord` of them. -/
def State.readChunk (s : State) (a : Addr) : ReadResult (List Byte) := s.readBytes a 8

/-- Byte lane k of a word, bits [8k+7:8k] (spec/00_scope.md R7). -/
def byteLane (w : Word) (k : Nat) : Byte := w.extractLsb' (8 * k) 8

end Sys2Proof.Machine
end

