-- ==== Sys2Proof/Machine/Ops.lean ====
section
/-! DEFINITION. The named operations on the state that the meanings share: completion, start, the advance of a running
command, reset, and the Host's register reads. -/

namespace Sys2Proof.Machine

/-- `finish(err, v)`, the completion primitive (spec/10_state.md R27).  It is the block's form of taking an exception
(spec/60_exceptions.md R108): it writes RESULT, BUSY, DONE and ERR and nothing else; there is no vector and no mode
change.  There is no return from an error (R109): ERR and DONE stay until the next accepted command or reset. -/
def State.finish (s : State) (e : ErrCode) (v : Word) : State :=
  { s.flagsFinished e with result := v }

/-- `start(cmd)` but for MODE and W (R26): latch BASE and LEN, clear IDX and ACC, set the flags; RESULT is unchanged. -/
def State.start (s : State) : State :=
  { s.flagsStarted with base := s.srcAddr, len := s.srcLen, idx := 0, acc := 0, consumed := [] }

/-- `start(PARSE_FAST)`: MODE <- FAST, W unchanged (R26). -/
def State.startFast (s : State) : State := { s.start with mode := .fast }

/-- `start(PARSE_CHECKEDn)`: MODE <- CHECKED, W <- n (R26). -/
def State.startChecked (s : State) (w : Width) : State := { s.start with mode := .checked, width := w }

/-- A CHUNK or DIGIT micro-step that goes on: ACC and IDX are written, and the bytes join those consumed
(spec/40_checked_parser.md R69, spec/41_fast_parser.md R91). -/
def State.advance (s : State) (acc idx : Word) (bs : List Byte) : State :=
  { s with acc := acc, idx := idx, consumed := s.consumed ++ bs }

/-- The reset event (R114): every piece of block state to its value in R30.  The input memory and the parameters are the
platform's and stay; the Host's program, the schedule, the values already read and the draws are not the block's. -/
def State.resetEvent (s : State) : State :=
  { State.reset with
    mem := s.mem, params := s.params, host := s.host, turns := s.turns, reads := s.reads, draws := s.draws }

/-- The command that is running, or ran last: MODE and, for a checked command, W (R22). -/
def State.running (s : State) : Instr :=
  match s.mode, s.width with
  | .fast, _      => .parseFast
  | .checked, .w8  => .parseChecked8
  | .checked, .w16 => .parseChecked16
  | .checked, .w32 => .parseChecked32
  | .checked, .w64 => .parseChecked64

/-- One atomic step of command `i` (R13): its issue while no command runs (R25, R26), and its Engine micro-step while it
is the running command (R28).  While another command runs, `i` has no step: nothing changes (log entry 5). -/
def commandStep (i : Instr) (issue : State → State) (micro : State → Host.Outcome State Fault Refusal) (s : State) :
    Host.Outcome State Fault Refusal :=
  if s.busy = false then .next (issue s)
  else if s.running = i then micro s
  else .next s

/-- The register at a byte offset; every other offset selects nothing (R15, spec/30_encoding.md R61). -/
def regAt (offset : Nat) : Option Reg :=
  if offset = 0x00 then some .cmd
  else if offset = 0x08 then some .srcAddr
  else if offset = 0x10 then some .srcLen
  else if offset = 0x18 then some .result
  else if offset = 0x20 then some .status
  else none

/-- The byte offset of a register (R15). -/
def regOffset : Reg → Nat
  | .cmd     => 0x00
  | .srcAddr => 0x08
  | .srcLen  => 0x10
  | .result  => 0x18
  | .status  => 0x20

/-- The value a Host read at an offset returns (R15, R16, R20, R21, R23): CMD and every offset without a register read 0. -/
def State.readReg (s : State) (offset : Nat) : Word :=
  match regAt offset with
  | some .cmd     => 0
  | some .srcAddr => s.srcAddr
  | some .srcLen  => s.srcLen
  | some .result  => s.result
  | some .status  => s.statusWord
  | none          => 0

/-- A value goes back to the Host. -/
def State.returned (s : State) (v : Word) : State := { s with reads := v :: s.reads }

end Sys2Proof.Machine
end

