-- ==== Sys2Proof/Machine/Checked.lean ====
section
/-! DEFINITION. The checked commands PARSE_CHECKED8, 16, 32 and 64 (spec/40_checked_parser.md R69 to R73). -/

namespace Sys2Proof.Machine

/-- `CheckedMicroStep` with width constants of `w` (R69): FINISH when the input is used up, else DIGIT. -/
def checkedMicroStep (w : Width) (s : State) : Host.Outcome State Fault Refusal :=
  if s.idx = s.len then .next (s.finish .none s.acc)
  else
    match s.memRead (s.inputAddr s.idx) with
    | .unreadable => .next (s.finish .busError 0)
    | .device a   => .refused (.deviceRead a)
    | .value b    =>
      match checkedStep w s.acc b with
      | .error e => .next (s.finish e 0)
      | .ok acc  => .next (s.advance acc (s.idx + 1) [b])

/-- PARSE_CHECKED8 (R70): start with MODE = CHECKED and W = 8, then R69 until BUSY = 0. -/
def execParseChecked8 (s : State) : Host.Outcome State Fault Refusal :=
  commandStep .parseChecked8 (fun s => s.startChecked .w8) (checkedMicroStep .w8) s

/-- PARSE_CHECKED16 (R71): start with MODE = CHECKED and W = 16, then R69 until BUSY = 0. -/
def execParseChecked16 (s : State) : Host.Outcome State Fault Refusal :=
  commandStep .parseChecked16 (fun s => s.startChecked .w16) (checkedMicroStep .w16) s

/-- PARSE_CHECKED32 (R72): start with MODE = CHECKED and W = 32, then R69 until BUSY = 0. -/
def execParseChecked32 (s : State) : Host.Outcome State Fault Refusal :=
  commandStep .parseChecked32 (fun s => s.startChecked .w32) (checkedMicroStep .w32) s

/-- PARSE_CHECKED64 (R73): start with MODE = CHECKED and W = 64, then R69 until BUSY = 0. -/
def execParseChecked64 (s : State) : Host.Outcome State Fault Refusal :=
  commandStep .parseChecked64 (fun s => s.startChecked .w64) (checkedMicroStep .w64) s

end Sys2Proof.Machine
end

