-- ==== Sys2Proof/Machine/Fast.lean ====
section
/-! DEFINITION. The fast command PARSE_FAST (spec/41_fast_parser.md R87 to R92). -/

namespace Sys2Proof.Machine

/-- The FINISH micro-step of a fast command (R90): the datapath value ACC[31:0], or, under FAST_CONTRACT_ONLY and an input
outside the contract, a free 32-bit draw. -/
def fastFinish (s : State) : State :=
  if (!contractOk s.consumed && s.params.fastContractOnly) = true then
    { s.finish .none (zext64 (Config.draw32 s.draws)) with draws := s.draws + 1 }
  else s.finish .none (narrow32 s.acc)

/-- The CHUNK micro-step (R91): eight byte reads, then ACC <- SwarCollapse and IDX <- 8. -/
def fastChunk (s : State) : Host.Outcome State Fault Refusal :=
  match s.readChunk s.base with
  | .unreadable => .next (s.finish .busError 0)
  | .device a   => .refused (.deviceRead a)
  | .value bs   => .next (s.advance (swarCollapse (leWord bs)) 8 bs)

/-- The DIGIT micro-step (R91): one byte read, then ACC <- FastStep and IDX <- IDX + 1. -/
def fastDigit (s : State) : Host.Outcome State Fault Refusal :=
  match s.memRead (s.inputAddr s.idx) with
  | .unreadable => .next (s.finish .busError 0)
  | .device a   => .refused (.deviceRead a)
  | .value b    => .next (s.advance (fastStep s.acc b) (s.idx + 1) [b])

/-- `FastMicroStep` (R91): at most one CHUNK, at IDX = 0 and only when LEN >= 8 (R87). -/
def fastMicroStep (s : State) : Host.Outcome State Fault Refusal :=
  if s.idx = 0 ∧ 8 ≤ s.len.toNat then fastChunk s
  else if s.idx.toNat < s.len.toNat then fastDigit s
  else .next (fastFinish s)

/-- PARSE_FAST (R92): start with MODE = FAST, then R91 until BUSY = 0. -/
def execParseFast (s : State) : Host.Outcome State Fault Refusal :=
  commandStep .parseFast State.startFast fastMicroStep s

end Sys2Proof.Machine
end

