-- ==== Sys2Proof/Machine/Dispatch.lean ====
section
/-! DEFINITION. One arm per command: one atomic step of that command, its issue or its Engine micro-step. -/

namespace Sys2Proof.Machine

def exec (i : Instr) (s : State) : Host.Outcome State Fault Refusal :=
  match i with
  | .parseFast => Sys2Proof.Machine.execParseFast s
  | .parseChecked8 => Sys2Proof.Machine.execParseChecked8 s
  | .parseChecked16 => Sys2Proof.Machine.execParseChecked16 s
  | .parseChecked32 => Sys2Proof.Machine.execParseChecked32 s
  | .parseChecked64 => Sys2Proof.Machine.execParseChecked64 s

end Sys2Proof.Machine
end

