-- ==== Sys2Proof/Machine/HostPort.lean ====
section
/-! DEFINITION. The Host's steps: register accesses, command issue, memory accesses, reset and WAIT
(spec/10_state.md R15 to R25, spec/30_encoding.md R59, R60). -/

namespace Sys2Proof.Machine

/-- A CMD write with BUSY = 0 (R25): a value that decodes runs its command's issue, every other value ends at once with
BAD_COMMAND (spec/60_exceptions.md R104). -/
def issueCommand (v : Word) (s : State) : Host.Outcome State Fault Refusal :=
  match decode v with
  | .ok i    => exec i s
  | .error _ => .next (s.finish .badCommand 0)

/-- A Host write of `v` at an offset (R16 to R21): while BUSY = 1 nothing is written (R24); RESULT, STATUS and offsets
without a register ignore writes. -/
def writeReg (offset : Nat) (v : Word) (s : State) : Host.Outcome State Fault Refusal :=
  match regAt offset with
  | some .cmd     => if s.busy then .next s else issueCommand v s
  | some .srcAddr => if s.busy then .next s else .next { s with srcAddr := v }
  | some .srcLen  => if s.busy then .next s else .next { s with srcLen := v }
  | some .result  => .next s
  | some .status  => .next s
  | none          => .next s

/-- A Host read of one byte of input memory (spec/20_memory.md R33).  At an address that is not readable the spec states
no value: a free byte (log entry 12). -/
def hostMemRead (a : Addr) (s : State) : Host.Outcome State Fault Refusal :=
  match s.memRead a with
  | .value b    => .next (s.returned (zext64 b))
  | .unreadable => .next { s.returned (zext64 (Config.freeByte s.draws)) with draws := s.draws + 1 }
  | .device a   => .refused (.deviceRead a)

/-- One poll of WAIT: RD STATUS, and WAIT stays the Host's next step while bit 0 (BUSY) of the value read is 1 (R60). -/
def waitPoll (s : State) : State :=
  if s.statusWord.getLsbD 0 then { s.returned s.statusWord with host := .wait :: s.host }
  else s.returned s.statusWord

/-- One Host step (R13). -/
def hostStep (op : HostOp) (s : State) : Host.Outcome State Fault Refusal :=
  match op with
  | .write offset v => writeReg offset v s
  | .read offset    => .next (s.returned (s.readReg offset))
  | .memWrite a b   => .next { s with mem := s.mem.write a b }
  | .memRead a      => hostMemRead a s
  | .reset          => .next s.resetEvent
  | .wait           => .next (waitPoll s)

/-- The Host takes its next step; with none left nothing changes. -/
def hostTurn (s : State) : Host.Outcome State Fault Refusal :=
  match s.host with
  | []        => .next s
  | op :: ops => hostStep op { s with host := ops }

/-- The Engine takes its step: one micro-step of the running command, enabled exactly when BUSY = 1 (R28). -/
def engineTurn (s : State) : Host.Outcome State Fault Refusal :=
  if s.busy then exec s.running s else .next s

/-- Whose turn it is, and the state with that turn taken off the schedule.  With no turn left the Engine goes while it is
enabled, else the Host (log entry 2; weak fairness, spec/70_reset_and_hazards.md R127). -/
def nextTurn (s : State) : Turn × State :=
  match s.turns with
  | []      => (if s.busy then .engine else .host, s)
  | t :: ts => (t, { s with turns := ts })

/-- One atomic step of the agent whose turn it is (R13). -/
def runTurn (t : Turn) (s : State) : Host.Outcome State Fault Refusal :=
  match t with
  | .host   => hostTurn s
  | .engine => engineTurn s
  | .reset  => .next s.resetEvent

end Sys2Proof.Machine
end

