-- ==== Sys2Proof/Machine/Step.lean ====
section
/-! DEFINITION. The step of the whole machine, and the placing of a command where the next step issues it. -/

namespace Sys2Proof.Machine

/-- One atomic step: of the Host, of the Engine, or reset (spec/10_state.md R13). -/
def step (s : State) : Host.Outcome State Fault Refusal :=
  runTurn (nextTurn s).1 (nextTurn s).2

/-- `s` with the Host about to write the command word to CMD, and its turn next.  The block fetches no instructions
(spec/20_memory.md R50): a command IS one Host write of CMD (log entry 4). -/
def State.withFetchWord (s : State) (nbits w : Nat) : State :=
  { s with host := .write 0x00 (tableWord nbits w) :: s.host, turns := .host :: s.turns }

end Sys2Proof.Machine
end

