-- ==== Sys2Proof/Machine/HostProgram.lean ====
section
/-! DEFINITION. Host programs as spec/30_encoding.md writes them (R58 to R60), and the Host steps they stand for. -/

namespace Sys2Proof.Machine

/-- One line of a Host program (R59, R60).  A string is its bytes, first character at the lowest address
(spec/00_scope.md R10). -/
inductive HostLine where
  | wr (r : Reg) (v : Word)
  | rd (r : Reg)
  | memw (a : Addr) (string : List Byte)
  | reset
  | issue (c : Instr) (a n : Word)
  | wait
  | parse (c : Instr) (a n : Word)
  deriving DecidableEq, Repr

/-- `MEMW a, "string"`: one memory write per byte, at a, a+1, ... (R59). -/
def memwSteps (a : Addr) : List Byte → List HostOp
  | []      => []
  | b :: bs => .memWrite a b :: memwSteps (a + 1) bs

/-- `ISSUE cmd, a, n` is WR SRC_ADDR, a; WR SRC_LEN, n; WR CMD, the CMD value of cmd (R60). -/
def issueSteps (c : Instr) (a n : Word) : List HostOp :=
  [.write (regOffset .srcAddr) a, .write (regOffset .srcLen) n, .write (regOffset .cmd) (encode c)]

/-- The Host steps of one line (R59, R60). -/
def HostLine.steps : HostLine → List HostOp
  | .wr r v      => [.write (regOffset r) v]
  | .rd r        => [.read (regOffset r)]
  | .memw a str  => memwSteps a str
  | .reset       => [.reset]
  | .issue c a n => issueSteps c a n
  | .wait        => [.wait]
  | .parse c a n => issueSteps c a n ++ [.wait, .read (regOffset .result)]

/-- The Host steps of a program, in its order. -/
def assemble (lines : List HostLine) : List HostOp := lines.flatMap HostLine.steps

end Sys2Proof.Machine
end

