-- ==== Sys2Proof/Safety.lean ====
section
/-! DEFINITION. The terms in which claims about the block are stated: runs, a command's input, where a checked parse stops,
the datapath value of a fast parse, the invariants of spec/10_state.md R31, and what the Host can observe (R32). -/

namespace Sys2Proof.Machine

/-- `n` steps of the machine, stopping at a refusal (the same as `Host.Core.run Sys2Proof.core`). -/
def run : Nat → State → Host.Outcome State Fault Refusal
  | 0, s => .next s
  | n + 1, s =>
    match step s with
    | .next t    => run n t
    | .fault f   => .fault f
    | .refused r => .refused r

/-- An outcome with `f` applied to its next state. -/
def mapNext (f : State → State) : Host.Outcome State Fault Refusal → Host.Outcome State Fault Refusal
  | .next t    => .next (f t)
  | .fault f   => .fault f
  | .refused r => .refused r

/-- The checked command of a width (spec/30_encoding.md R53). -/
def checkedInstr : Width → Instr
  | .w8  => .parseChecked8
  | .w16 => .parseChecked16
  | .w32 => .parseChecked32
  | .w64 => .parseChecked64

/-- Address `k` places after `a`, modulo 2^64 (spec/20_memory.md R40). -/
def addrAt (a : Addr) (k : Nat) : Addr := a + BitVec.ofNat 64 k

/-- The `n` bytes that memory holds from address `a` on. -/
def bytesFrom (m : Memory) (a : Addr) (n : Nat) : List Byte := (List.range n).map (fun k => m.read (addrAt a k))

/-- The input of the command that the registers SRC_ADDR and SRC_LEN describe. -/
def State.input (s : State) : List Byte := bytesFrom s.mem s.srcAddr s.srcLen.toNat

/-- Every byte of that input is in ordinary readable memory (spec/70_reset_and_hazards.md R117 step 1). -/
def State.InputOrdinary (s : State) : Prop :=
  ∀ k, k < s.srcLen.toNat → s.kindAt (addrAt s.srcAddr k) = .ordinary

/-- A checked parse of width `w` cannot accept byte `i` of `bs`: it is a non-digit, or the bytes before it are digits and
the value up to and with it exceeds MAX_W (spec/40_checked_parser.md R75). -/
def StopsAt (w : Width) (bs : List Byte) (i : Nat) : Prop :=
  ∃ b, bs[i]? = some b ∧
    (isDigit b = false ∨ ((bs.take i).all isDigit = true ∧ maxW w < value (bs.take (i + 1))))

/-- `i` is the least such index (R75). -/
def FirstStop (w : Width) (bs : List Byte) (i : Nat) : Prop :=
  StopsAt w bs i ∧ ∀ j, j < i → ¬ StopsAt w bs j

/-- The accumulator that the fast datapath reaches on an input: one chunk when there are at least 8 bytes, and the rest
folded in one at a time (spec/41_fast_parser.md R87, R91). -/
def fastDatapath (bs : List Byte) : Word :=
  if 8 ≤ bs.length then (bs.drop 8).foldl fastStep (swarCollapse (leWord (bs.take 8)))
  else bs.foldl fastStep 0

/-- `t` holds what a checked DIGIT micro-step from `s` that reads the byte `c` leaves: its digit step's accumulator, with IDX
moved on, or the end of the command with its error (spec/40_checked_parser.md R69). -/
def CheckedDigitOf (s t : State) (c : Byte) : Prop :=
  match checkedStep s.width s.acc c with
  | .ok acc  => t.busy = true ∧ t.acc = acc ∧ t.idx = s.idx + 1 ∧ t.consumed = s.consumed ++ [c]
  | .error e => t.busy = false ∧ t.done = true ∧ t.err = e ∧ t.result = 0 ∧ t.acc = s.acc ∧ t.idx = s.idx

/-- How many micro-steps a fast command with LEN = n takes to its end (R99, spec/70_reset_and_hazards.md R126). -/
def fastMicroSteps (n : Nat) : Nat := if n < 8 then n + 1 else n - 6

/-- The invariants of R31 (a) to (d). -/
structure EngineInvariant (s : State) : Prop where
  busyNotDone : s.busy = true → s.done = false
  idxLeLen    : s.idx.toNat ≤ s.len.toNat
  accLeMax    : s.mode = .checked → s.busy = true → s.acc.toNat ≤ maxW s.width
  chunkFirst  : s.mode = .fast → s.busy = true → 8 ≤ s.len.toNat → s.idx = 0 ∨ 8 ≤ s.idx.toNat

/-- What else every step keeps: what the flags and RESULT can be, what the accumulator holds of the bytes consumed, and
the canonical form of memory. -/
structure Invariant (s : State) : Prop extends EngineInvariant s where
  errOnlyWhenDone : s.done = false → s.err = .none
  resultOnError   : s.err ≠ .none → s.result = 0
  resultFast      : s.mode = .fast → s.done = true → s.result.toNat < 2 ^ 32
  resultChecked   : s.mode = .checked → s.done = true → s.result.toNat ≤ maxW s.width
  consumedLength  : s.consumed.length = s.idx.toNat
  consumedDigits  : s.mode = .checked → s.consumed.all isDigit = true ∧ s.acc.toNat = value s.consumed
  consumedFast    : s.mode = .fast → s.consumed.all isDigit = true → s.acc.toNat = value s.consumed % 2 ^ 64
  memoryCanonical : Memory.wf s.mem

/-- The clean-entry states of spec/70_reset_and_hazards.md R118: reset, with any input memory, any parameters, any Host
program and any schedule. -/
def CleanEntry (s : State) : Prop :=
  Memory.wf s.mem ∧
  s = { State.reset with mem := s.mem, params := s.params, host := s.host, turns := s.turns }

/-- The Engine's latched state that a running command can still depend on agrees (R26: a fast command leaves W alone). -/
def SameEngine (s t : State) : Prop :=
  s.mode = t.mode ∧ (s.mode = .checked → s.width = t.width) ∧ s.base = t.base ∧ s.len = t.len ∧ s.idx = t.idx ∧
  s.acc = t.acc ∧ s.consumed = t.consumed

/-- Two states agree on all but the Engine's internal state: the registers the Host can observe (R32), memory, the
parameters, the Host, the schedule, the values read and the draws. -/
def SameObserved (s t : State) : Prop :=
  s.srcAddr = t.srcAddr ∧ s.srcLen = t.srcLen ∧ s.result = t.result ∧ s.busy = t.busy ∧ s.done = t.done ∧ s.err = t.err ∧
  s.mem = t.mem ∧ s.params = t.params ∧ s.host = t.host ∧ s.turns = t.turns ∧ s.reads = t.reads ∧ s.draws = t.draws

/-- Two outcomes of the same kind, next states related by `R`, refusals equal. -/
def SameOutcome (R : State → State → Prop) : Host.Outcome State Fault Refusal → Host.Outcome State Fault Refusal → Prop
  | .next s, .next t       => R s t
  | .refused r, .refused q => r = q
  | _, _                   => False

end Sys2Proof.Machine
end

