-- ==== Sys2Proof/Certificates/Slice0/Obligations.lean ====
section
/-! DEFINITION. The statements for the provers, in the order of the spec's files.  Each docstring names the rules it
formalises. -/

open Sys2Proof Sys2Proof.Machine

/-! ### Encoding (spec/30_encoding.md) -/

/-- The five CMD values of R54, written out from its table, decode to the five commands. -/
def Obligations.FiveCommandWordsDecode : Prop :=
  decode 0x0000000000000001 = .ok .parseFast ∧ decode 0x0000000000000002 = .ok .parseChecked8 ∧
  decode 0x0000000000000012 = .ok .parseChecked16 ∧ decode 0x0000000000000022 = .ok .parseChecked32 ∧
  decode 0x0000000000000032 = .ok .parseChecked64

/-- R63: a command encodes to its CMD value of R54, decoding an encoded command gives it back, and encoding what a value
decodes to gives the value back. -/
def Obligations.DecodeAndEncodeAgree : Prop :=
  (encode .parseFast = 0x01 ∧ encode .parseChecked8 = 0x02 ∧ encode .parseChecked16 = 0x12 ∧
    encode .parseChecked32 = 0x22 ∧ encode .parseChecked64 = 0x32) ∧
  (∀ i : Instr, decode (encode i) = .ok i) ∧ ∀ (v : Word) (i : Instr), decode v = .ok i → encode i = v

/-- R62: exactly five 64-bit values decode to commands; every other value is BAD. -/
def Obligations.ExactlyFiveValuesAreCommands : Prop :=
  ∀ v : Word,
    ((∃ i, decode v = .ok i) ↔ v = 0x01 ∨ v = 0x02 ∨ v = 0x12 ∨ v = 0x22 ∨ v = 0x32) ∧
    ((∃ i, decode v = .ok i) ∨ ∃ e, decode v = .error e)

/-- R56 and R104, which values are illegal: all but the five, among them OP 0x0, OP 0x3 to 0xF, OP 0x1 with WSEL not 00 and
any bit of [63:6]; and what writing one does with BUSY = 0 (BAD_COMMAND at once, nothing else changed) and with BUSY = 1
(ignored, as any value is). -/
def Obligations.IllegalCommandValues : Prop :=
  (∀ v : Word, v ≠ 0x01 → v ≠ 0x02 → v ≠ 0x12 → v ≠ 0x22 → v ≠ 0x32 → ∃ e, decode v = .error e) ∧
  (∀ v : Word, cmdOp v = 0 ∨ 3 ≤ (cmdOp v).toNat ∨ (cmdOp v = 1 ∧ cmdWsel v ≠ 0) ∨ cmdReserved v ≠ 0 →
    ∃ e, decode v = .error e) ∧
  (∀ (s : State) (v : Word) (e : DecodeReject), decode v = .error e → s.busy = false →
    hostStep (.write 0x00 v) s = .next { s with result := 0, busy := false, done := true, err := .badCommand }) ∧
  (∀ (s : State) (v : Word), s.busy = true → hostStep (.write 0x00 v) s = .next s)

/-! ### The step and the command it runs (spec/10_state.md R13, R25, R28) -/

/-- A step runs the decoded command.  Where it is the Host's turn (given by the schedule, or by an empty schedule with no
command running) and its next step writes to CMD a value that decodes to `i`, with BUSY = 0, the step is `exec i` with
that Host step and that turn taken off (R25); the word placed by `withFetchWord` is such a write.  Where it is the
Engine's turn and BUSY = 1, the step is `exec` of the running command (R28).  (The schedule, its end and the placing are
the model's, log entries 1, 2 and 4.) -/
def Obligations.StepRunsDecodedCommand : Prop :=
  (∀ (s : State) (v : Word) (i : Instr) (ops : List HostOp) (ts : List Turn),
    s.host = .write 0x00 v :: ops → s.turns = .host :: ts → s.busy = false → decode v = .ok i →
    step s = exec i { s with host := ops, turns := ts }) ∧
  (∀ (s : State) (v : Word) (i : Instr) (ops : List HostOp),
    s.host = .write 0x00 v :: ops → s.turns = [] → s.busy = false → decode v = .ok i →
    step s = exec i { s with host := ops }) ∧
  (∀ (s : State) (i : Instr), s.busy = false → step (s.withFetchWord 64 (encode i).toNat) = exec i s) ∧
  (∀ (s : State) (ts : List Turn), s.turns = .engine :: ts → s.busy = true →
    step s = exec s.running { s with turns := ts }) ∧
  (∀ s : State, s.turns = [] → s.busy = true → step s = exec s.running s)

/-- R25 with R26, a Host write of CMD while BUSY = 0: in one Host step it starts the command that the value decodes to, or
ends with BAD_COMMAND where it decodes to none. (`consumed` is the model's ghost field, log entry 11.) -/
def Obligations.CmdWriteIssuesCommand : Prop :=
  ∀ (s : State) (v : Word), s.busy = false →
    (decode v = .ok .parseFast → hostStep (.write 0x00 v) s = .next { s with
      mode := .fast, base := s.srcAddr, len := s.srcLen, idx := 0, acc := 0,
      busy := true, done := false, err := .none, consumed := [] }) ∧
    (∀ w, decode v = .ok (checkedInstr w) → hostStep (.write 0x00 v) s = .next { s with
      mode := .checked, width := w, base := s.srcAddr, len := s.srcLen, idx := 0, acc := 0,
      busy := true, done := false, err := .none, consumed := [] }) ∧
    (∀ e, decode v = .error e →
      hostStep (.write 0x00 v) s = .next { s with result := 0, busy := false, done := true, err := .badCommand })

/-- R26, what the start of each of the five commands leaves: every field of R26, and nothing else changed, RESULT among
it. (`consumed` is the model's ghost field, log entry 11.) -/
def Obligations.StartOfEveryCommand : Prop :=
  ∀ s : State, s.busy = false →
    exec .parseFast s = .next { s with
      mode := .fast, base := s.srcAddr, len := s.srcLen, idx := 0, acc := 0,
      busy := true, done := false, err := .none, consumed := [] } ∧
    (∀ w : Width, exec (checkedInstr w) s = .next { s with
      mode := .checked, width := w, base := s.srcAddr, len := s.srcLen, idx := 0, acc := 0,
      busy := true, done := false, err := .none, consumed := [] })

/-- R28: the Engine has a step exactly when BUSY = 1, the micro-step of the running command; it never writes SRC_ADDR,
SRC_LEN or the input memory, a step of it after which BUSY is still 1 has not written RESULT, DONE or ERR, and one that
clears BUSY is a `finish` (R27). (That an Engine turn with BUSY = 0 exists and changes nothing is the model's choice, log
entry 3: the spec has no such step.  `draws` counts the model's free values, log entry 10.) -/
def Obligations.EngineStepsExactlyWhenBusy : Prop :=
  ∀ s : State,
    (s.busy = false → engineTurn s = .next s) ∧
    (s.busy = true → engineTurn s = exec s.running s) ∧
    (s.busy = true → s.mode = .fast → engineTurn s = fastMicroStep s) ∧
    (s.busy = true → s.mode = .checked → engineTurn s = checkedMicroStep s.width s) ∧
    (∀ t, engineTurn s = .next t →
      t.srcAddr = s.srcAddr ∧ t.srcLen = s.srcLen ∧ t.mem = s.mem ∧
      (t.busy = true → t.result = s.result ∧ t.done = s.done ∧ t.err = s.err) ∧
      (s.busy = true → t.busy = false → ∃ e v n,
        t = { s with result := v, busy := false, done := true, err := e, draws := n }))

/-- The frame of all five commands (PARSE_FAST, PARSE_CHECKED8, 16, 32, 64), at an issue and at a micro-step: SRC_ADDR,
SRC_LEN, every byte of memory, the parameters, the Host and the schedule are unchanged.  An issue leaves RESULT (and
PARSE_FAST's leaves W); a micro-step leaves MODE, W, BASE and LEN, and it leaves RESULT, DONE and ERR if the command goes
on and IDX and ACC if it ends. -/
def Obligations.CommandFrame : Prop :=
  ∀ (i : Instr) (s t : State), exec i s = .next t →
    t.srcAddr = s.srcAddr ∧ t.srcLen = s.srcLen ∧ t.params = s.params ∧ t.host = s.host ∧ t.turns = s.turns ∧
    t.reads = s.reads ∧ (∀ a, t.mem.read a = s.mem.read a) ∧
    (s.busy = false → t.result = s.result ∧ t.draws = s.draws ∧ (i = .parseFast → t.width = s.width)) ∧
    (s.busy = true →
      t.mode = s.mode ∧ t.width = s.width ∧ t.base = s.base ∧ t.len = s.len ∧
      (t.busy = true → t.result = s.result ∧ t.done = s.done ∧ t.err = s.err ∧ t.draws = s.draws) ∧
      (t.busy = false → t.idx = s.idx ∧ t.acc = s.acc ∧ t.consumed = s.consumed))

/-! ### The Host register file (spec/10_state.md R15 to R24) -/

/-- R23 with the offsets of R15 and R61: what a Host read returns at every offset; it changes nothing but the values
returned. -/
def Obligations.RegisterReads : Prop :=
  ∀ (s : State) (offset : Nat), ∃ v : Word,
    hostStep (.read offset) s = .next { s with reads := v :: s.reads } ∧
    (offset = 0x00 → v = 0) ∧ (offset = 0x08 → v = s.srcAddr) ∧ (offset = 0x10 → v = s.srcLen) ∧
    (offset = 0x18 → v = s.result) ∧ (offset = 0x20 → v = s.statusWord) ∧
    (offset ≠ 0x00 → offset ≠ 0x08 → offset ≠ 0x10 → offset ≠ 0x18 → offset ≠ 0x20 → v = 0)

/-- R20, the fields of STATUS: bit 0 BUSY, bit 1 DONE, bits [4:2] the number of ERR (NONE 0, INVALID_CHARACTER 1,
OVERFLOW 2, BAD_COMMAND 3, BUS_ERROR 4), bits [63:5] zero. -/
def Obligations.StatusLayout : Prop :=
  ∀ s : State,
    s.statusWord.getLsbD 0 = s.busy ∧ s.statusWord.getLsbD 1 = s.done ∧
    (s.statusWord.extractLsb' 2 3).toNat =
      (match s.err with
        | .none => 0 | .invalidCharacter => 1 | .overflow => 2 | .badCommand => 3 | .busError => 4) ∧
    s.statusWord.extractLsb' 5 59 = 0

/-- R17 and R18: with BUSY = 0 a write sets all 64 bits of SRC_ADDR or SRC_LEN, a write with BUSY = 1 is ignored, and a
read returns what was written. -/
def Obligations.SourceRegistersAreReadWrite : Prop :=
  ∀ (s : State) (v : Word),
    (s.busy = false → hostStep (.write 0x08 v) s = .next { s with srcAddr := v } ∧
      hostStep (.write 0x10 v) s = .next { s with srcLen := v }) ∧
    (s.busy = true → hostStep (.write 0x08 v) s = .next s ∧ hostStep (.write 0x10 v) s = .next s) ∧
    ({ s with srcAddr := v }.readReg 0x08 = v ∧ { s with srcLen := v }.readReg 0x10 = v)

/-- R24: a Host write of CMD, SRC_ADDR or SRC_LEN while BUSY = 1 is ignored. -/
def Obligations.WritesWhileBusyAreIgnored : Prop :=
  ∀ (s : State) (offset : Nat) (v : Word), s.busy = true → offset = 0x00 ∨ offset = 0x08 ∨ offset = 0x10 →
    hostStep (.write offset v) s = .next s

/-- Host writes of RESULT, of STATUS and at an offset without a register are ignored (R19, R20, R21), whatever BUSY is. -/
def Obligations.ReadOnlyWritesAreIgnored : Prop :=
  ∀ (s : State) (offset : Nat) (v : Word), offset ≠ 0x00 → offset ≠ 0x08 → offset ≠ 0x10 →
    hostStep (.write offset v) s = .next s

/-- WAIT of R60: each poll is one RD STATUS, and WAIT stays the Host's next step exactly while the value read has
bit 0 (BUSY) set.  (Its form as a Host step is log entry 23.) -/
def Obligations.WaitPollsStatus : Prop :=
  ∀ (s : State) (ops : List HostOp) (ts : List Turn), s.turns = .host :: ts → s.host = .wait :: ops →
    (s.busy = true → step s = .next { s with turns := ts, reads := s.statusWord :: s.reads }) ∧
    (s.busy = false → step s = .next { s with turns := ts, host := ops, reads := s.statusWord :: s.reads })

/-! ### Reset (spec/10_state.md R30, spec/70_reset_and_hazards.md R114) -/

/-- R30: the reset state holds the reset value of every register, field and Engine state, and STATUS reads 0. -/
def Obligations.ResetValues : Prop :=
  State.reset.readReg 0x00 = 0 ∧ State.reset.srcAddr = 0 ∧ State.reset.srcLen = 0 ∧ State.reset.result = 0 ∧
  State.reset.busy = false ∧ State.reset.done = false ∧ State.reset.err = .none ∧ State.reset.statusWord = 0 ∧
  State.reset.mode = .fast ∧ State.reset.width = .w8 ∧ State.reset.base = 0 ∧ State.reset.len = 0 ∧
  State.reset.idx = 0 ∧ State.reset.acc = 0

/-- R114: reset, as a turn between any two steps or as the Host's own step, sets every piece of block state to the value of
R30 whatever is running, and leaves the input memory.  (That it also leaves the parameters and the Host's program is log entry
20, and that it is both a Host step and a turn is log entry 24.) -/
def Obligations.ResetEventClearsTheBlock : Prop :=
  ∀ s : State,
    (∀ t, (hostStep .reset s = .next t ∨ ∃ ts, s.turns = .reset :: ts ∧ step s = .next t) →
      t.readReg 0x00 = 0 ∧ t.srcAddr = 0 ∧ t.srcLen = 0 ∧ t.result = 0 ∧ t.statusWord = 0 ∧ t.busy = false ∧
      t.done = false ∧ t.err = .none ∧ t.mode = .fast ∧ t.width = .w8 ∧ t.base = 0 ∧ t.len = 0 ∧ t.idx = 0 ∧
      t.acc = 0 ∧ t.mem = s.mem ∧ t.params = s.params ∧ t.host = s.host) ∧
    (∃ t, hostStep .reset s = .next t) ∧ (∀ ts, s.turns = .reset :: ts → ∃ t, step s = .next t)

/-! ### Input memory (spec/20_memory.md) -/

/-- R34: a Host memory write sets that byte, whatever the Engine is doing; every other byte and everything else is
unchanged, and memory keeps its canonical form (the list form is the model's, log entry 8; that the write lands at every
address is log entry 13).  A Host memory read (R33) of that byte, where it is ordinary memory, then returns it,
zero-extended, and changes nothing else. -/
def Obligations.HostMemoryWrite : Prop :=
  ∀ (s : State) (a : Addr) (b : Byte), Memory.wf s.mem →
    ∃ t, hostStep (.memWrite a b) s = .next t ∧ t.mem.read a = b ∧ (∀ c, c ≠ a → t.mem.read c = s.mem.read c) ∧
      t = { s with mem := t.mem } ∧ Memory.wf t.mem ∧
      (s.kindAt a = .ordinary → hostStep (.memRead a) t = .next { t with reads := zext64 b :: s.reads })

/-- R33, what a Host read of input memory returns: at ordinary memory the byte there, zero-extended; at an unreadable address
some byte, of which nothing is stated (the model's free byte, log entry 12); nothing else changes but the values returned
and the counter of free values.  At a device it is refused by name (log entry 7). -/
def Obligations.HostMemoryRead : Prop :=
  ∀ (s : State) (a : Addr),
    (s.kindAt a = .ordinary → hostStep (.memRead a) s = .next { s with reads := zext64 (s.mem.read a) :: s.reads }) ∧
    (s.kindAt a = .unreadable → ∃ b : Byte, hostStep (.memRead a) s =
      .next { s with reads := zext64 b :: s.reads, draws := s.draws + 1 }) ∧
    (s.kindAt a = .device → hostStep (.memRead a) s = .refused (.deviceRead a))

/-- R44 over the whole machine: the only step that changes the input memory is a Host memory write.  An Engine step, a reset
and every other Host step leave it, whatever step the Host has next; and no step changes the parameters. -/
def Obligations.OnlyHostWritesChangeMemory : Prop :=
  ∀ s t : State, step s = .next t →
    (((nextTurn s).1 = .host → ∀ a b ops, s.host ≠ .memWrite a b :: ops) → t.mem = s.mem) ∧ t.params = s.params

/-- R36 to R38: the chunk read of eight readable bytes is little-endian: lane k of the chunk word, bits [8k+7:8k], is the
byte at (a + k) mod 2^64, the byte a one-byte read gives there. -/
def Obligations.ChunkReadIsLittleEndian : Prop :=
  ∀ (s : State) (a : Addr), (∀ k, k < 8 → s.kindAt (addrAt a k) = .ordinary) →
    ∃ bs, s.readChunk a = .value bs ∧
      ∀ k, k < 8 → s.memRead (addrAt a k) = .value (byteLane (leWord bs) k) ∧
        byteLane (leWord bs) k = s.mem.read (addrAt a k)

/-- R40: the address of input byte i is (BASE + i) mod 2^64; past 2^64 - 1 it wraps to 0. -/
def Obligations.InputAddressesWrap : Prop :=
  (∀ (s : State) (i : Word), (s.inputAddr i).toNat = (s.base.toNat + i.toNat) % 2 ^ 64) ∧
  ∀ (s : State) (i : Word), s.base.toNat + i.toNat = 2 ^ 64 → s.inputAddr i = 0

/-- R47 (b), a race while busy: a Host write of a byte that the Engine's next micro-step reads, in a checked DIGIT, a fast
DIGIT and a CHUNK (any one of its eight bytes).  With the write before the Engine's step in the step order the micro-step is
that of the new byte, and with it after, that of the old one.  (The step order is the schedule, log entry 1; the chunk is
read in one step, log entry 14; `consumed` is log entry 11's.) -/
def Obligations.RaceReadsByStepOrder : Prop :=
  ∀ (s : State) (b : Byte) (ops : List HostOp) (ts : List Turn), Memory.wf s.mem → s.busy = true →
    (s.mode = .checked → s.idx ≠ s.len → s.kindAt (s.inputAddr s.idx) = .ordinary →
      s.host = .memWrite (s.inputAddr s.idx) b :: ops →
      (s.turns = .host :: .engine :: ts → ∃ t, run 2 s = .next t ∧ CheckedDigitOf s t b) ∧
      (s.turns = .engine :: .host :: ts → ∃ t, run 2 s = .next t ∧
        CheckedDigitOf s t (s.mem.read (s.inputAddr s.idx)))) ∧
    (s.mode = .fast → ¬ (s.idx = 0 ∧ 8 ≤ s.len.toNat) → s.idx.toNat < s.len.toNat →
      s.kindAt (s.inputAddr s.idx) = .ordinary → s.host = .memWrite (s.inputAddr s.idx) b :: ops →
      (s.turns = .host :: .engine :: ts → ∃ t, run 2 s = .next t ∧ t.busy = true ∧
        t.acc = fastStep s.acc b ∧ t.idx = s.idx + 1 ∧ t.consumed = s.consumed ++ [b]) ∧
      (s.turns = .engine :: .host :: ts → ∃ t, run 2 s = .next t ∧ t.busy = true ∧
        t.acc = fastStep s.acc (s.mem.read (s.inputAddr s.idx)) ∧ t.idx = s.idx + 1 ∧
        t.consumed = s.consumed ++ [s.mem.read (s.inputAddr s.idx)])) ∧
    (∀ k, s.mode = .fast → s.idx = 0 → 8 ≤ s.len.toNat → k < 8 →
      (∀ j, j < 8 → s.kindAt (addrAt s.base j) = .ordinary) → s.host = .memWrite (addrAt s.base k) b :: ops →
      (s.turns = .host :: .engine :: ts → ∃ t, run 2 s = .next t ∧ t.busy = true ∧
        t.acc = swarCollapse (leWord ((bytesFrom s.mem s.base 8).set k b)) ∧ t.idx = 8 ∧
        t.consumed = s.consumed ++ (bytesFrom s.mem s.base 8).set k b) ∧
      (s.turns = .engine :: .host :: ts → ∃ t, run 2 s = .next t ∧ t.busy = true ∧
        t.acc = swarCollapse (leWord (bytesFrom s.mem s.base 8)) ∧ t.idx = 8 ∧
        t.consumed = s.consumed ++ bytesFrom s.mem s.base 8))

/-- The read set (R41, R47 (c), R122): a running command depends on no byte outside input bytes 0..LEN-1.  Any number of
Engine steps from two states that differ only in the contents and the readability of addresses outside the input give the
same outcome, but for those. -/
def Obligations.BytesOutsideTheInputAreNotRead : Prop :=
  ∀ (n : Nat) (s : State) (m : Memory) (p : List Region),
    EngineInvariant s → s.turns = List.replicate n .engine →
    (∀ k, k < s.len.toNat → m.read (addrAt s.base k) = s.mem.read (addrAt s.base k) ∧
      kindIn p (addrAt s.base k) = s.kindAt (addrAt s.base k)) →
    run n { s with mem := m, params := { s.params with regions := p } } =
      mapNext (fun t => { t with mem := m, params := { t.params with regions := p } }) (run n s)

/-! ### The checked parser (spec/40_checked_parser.md) -/

/-- R65: MAX_W, DIV_W and MOD_W at the four widths, and the WSEL that selects each. -/
def Obligations.WidthConstants : Prop :=
  checkedOfWsel 0b00 = checkedInstr .w8 ∧ checkedOfWsel 0b01 = checkedInstr .w16 ∧
  checkedOfWsel 0b10 = checkedInstr .w32 ∧ checkedOfWsel 0b11 = checkedInstr .w64 ∧
  maxW .w8 = 255 ∧ divW .w8 = 25 ∧ modW .w8 = 5 ∧
  maxW .w16 = 65535 ∧ divW .w16 = 6553 ∧ modW .w16 = 5 ∧
  maxW .w32 = 4294967295 ∧ divW .w32 = 429496729 ∧ modW .w32 = 5 ∧
  maxW .w64 = 18446744073709551615 ∧ divW .w64 = 1844674407370955161 ∧ modW .w64 = 5

/-- R67: the checked digit step: the digit test comes first, whatever the accumulator; then Accept_W; then exact
arithmetic, which does not exceed MAX_W. -/
def Obligations.CheckedDigitStep : Prop :=
  ∀ (w : Width) (acc : Word) (b : Byte),
    (isDigit b = false → checkedStep w acc b = .error .invalidCharacter) ∧
    (isDigit b = true → accepts w acc.toNat (digitValue b) = false → checkedStep w acc b = .error .overflow) ∧
    (isDigit b = true → accepts w acc.toNat (digitValue b) = true →
      ∃ acc', checkedStep w acc b = .ok acc' ∧ acc'.toNat = acc.toNat * 10 + digitValue b ∧ acc'.toNat ≤ maxW w)

/-- R74: `Accept_W` accepts exactly the digits whose value stays within MAX_W, in each of its three cases, so nothing the
checked datapath computes exceeds MAX_W, which is at most 2^64 - 1. -/
def Obligations.AcceptIsExact : Prop :=
  (∀ (w : Width) (acc d : Nat), acc ≤ maxW w → d ≤ 9 →
    (accepts w acc d = true ↔ acc * 10 + d ≤ maxW w) ∧
    (acc < divW w → acc * 10 + d ≤ 10 * divW w - 1 ∧ 10 * divW w - 1 ≤ maxW w) ∧
    (acc = divW w → acc * 10 + d = maxW w - modW w + d) ∧
    (divW w < acc → 10 * (divW w + 1) ≤ acc * 10 ∧ maxW w < 10 * (divW w + 1))) ∧
  (∀ (w : Width) (acc acc' : Word) (b : Byte), checkedStep w acc b = .ok acc' → acc'.toNat ≤ maxW w) ∧
  (∀ w : Width, maxW w ≤ 2 ^ 64 - 1)

/-- R69, the micro-step of PARSE_CHECKED8, 16, 32 and 64 at BUSY = 1, in its five cases: FINISH, an unreadable byte, a
non-digit, an overflow, an accepted digit. (`consumed` is the model's ghost field, log entry 11.) -/
def Obligations.CheckedMicroStep : Prop :=
  ∀ (w : Width) (s : State), s.busy = true → s.running = checkedInstr w →
    (s.idx = s.len → exec (checkedInstr w) s =
      .next { s with result := s.acc, busy := false, done := true, err := .none }) ∧
    (s.idx ≠ s.len → s.kindAt (s.inputAddr s.idx) = .unreadable → exec (checkedInstr w) s =
      .next { s with result := 0, busy := false, done := true, err := .busError }) ∧
    (∀ b, s.idx ≠ s.len → s.kindAt (s.inputAddr s.idx) = .ordinary → s.mem.read (s.inputAddr s.idx) = b →
      (isDigit b = false → exec (checkedInstr w) s =
        .next { s with result := 0, busy := false, done := true, err := .invalidCharacter }) ∧
      (isDigit b = true → maxW w < s.acc.toNat * 10 + digitValue b → exec (checkedInstr w) s =
        .next { s with result := 0, busy := false, done := true, err := .overflow }) ∧
      (isDigit b = true → s.acc.toNat * 10 + digitValue b ≤ maxW w → exec (checkedInstr w) s =
        .next { s with
          acc := BitVec.ofNat 64 (s.acc.toNat * 10 + digitValue b), idx := s.idx + 1, consumed := s.consumed ++ [b] }))

/-- R75, a whole checked command on a readable input: with no stopping byte it ends with NONE and the value; else the first
stopping byte decides, with RESULT 0, INVALID_CHARACTER for a non-digit and OVERFLOW otherwise.  The counts are R78's: n + 1
micro-steps on success, k + 1 for an error at byte k.  Memory and the source registers are as before.  (The schedule is
empty, log entry 2.) -/
def Obligations.CheckedCommandOutcome : Prop :=
  ∀ (w : Width) (s : State), s.busy = false → s.turns = [] → s.InputOrdinary →
    ∃ s₁, exec (checkedInstr w) s = .next s₁ ∧
      ((∀ i, ¬ StopsAt w s.input i) →
        ∃ t, run (s.srcLen.toNat + 1) s₁ = .next t ∧ t.busy = false ∧ t.done = true ∧ t.err = .none ∧
          t.result.toNat = value s.input ∧ t.mem = s.mem ∧ t.srcAddr = s.srcAddr ∧ t.srcLen = s.srcLen) ∧
      (∀ i b, FirstStop w s.input i → s.input[i]? = some b →
        ∃ t, run (i + 1) s₁ = .next t ∧ t.busy = false ∧ t.done = true ∧ t.result = 0 ∧
          t.err = (if isDigit b = false then .invalidCharacter else .overflow) ∧
          t.mem = s.mem ∧ t.srcAddr = s.srcAddr ∧ t.srcLen = s.srcLen)

/-- The last sentence of R75, of the run: on a readable all-digit input a checked command ends with OVERFLOW exactly when
value(s) exceeds MAX_W, with RESULT 0, and else with NONE and value(s); it ends within LEN + 1 micro-steps.  And why: a byte
stops the parse exactly then, and no prefix of an input without a stopping byte has a value above MAX_W.  (The schedule is
empty, log entry 2.) -/
def Obligations.DigitInputStopsExactlyOnOverflow : Prop :=
  (∀ (w : Width) (s : State), s.busy = false → s.turns = [] → s.InputOrdinary → s.input.all isDigit = true →
    ∃ s₁ t n, exec (checkedInstr w) s = .next s₁ ∧ n ≤ s.srcLen.toNat + 1 ∧ run n s₁ = .next t ∧
      t.busy = false ∧ t.done = true ∧ (t.err = .overflow ↔ maxW w < value s.input) ∧
      (maxW w < value s.input → t.result = 0) ∧
      (value s.input ≤ maxW w → t.err = .none ∧ t.result.toNat = value s.input)) ∧
  ∀ (w : Width) (bs : List Byte), bs.all isDigit = true →
    ((∃ i, StopsAt w bs i) ↔ maxW w < value bs) ∧
    ((∀ i, ¬ StopsAt w bs i) → ∀ k, value (bs.take k) ≤ maxW w)

/-- R76: a checked command with LEN = 0 takes one FINISH micro-step and ends with NONE and RESULT = 0. -/
def Obligations.EmptyInputParsesToZero : Prop :=
  ∀ (w : Width) (s : State), s.busy = false → s.srcLen = 0 →
    ∃ s₁ t, exec (checkedInstr w) s = .next s₁ ∧ engineTurn s₁ = .next t ∧ t.busy = false ∧ t.done = true ∧
      t.err = .none ∧ t.result = 0

/-- R107 (c) and (d) for a checked command: the error of the lowest failing byte wins, and bytes after it need not be
readable.  A byte that stops the parse, with every byte up to it readable, gives its own code; an unreadable byte, with
every byte before it readable and accepted, gives BUS_ERROR.  (The schedule is empty, log entry 2.) -/
def Obligations.LowestFailingByteWins : Prop :=
  ∀ (w : Width) (s : State), s.busy = false → s.turns = [] →
    ∃ s₁, exec (checkedInstr w) s = .next s₁ ∧
      (∀ i b, FirstStop w s.input i → s.input[i]? = some b →
        (∀ j, j ≤ i → s.kindAt (addrAt s.srcAddr j) = .ordinary) →
        ∃ t, run (i + 1) s₁ = .next t ∧ t.busy = false ∧ t.done = true ∧ t.result = 0 ∧
          t.err = (if isDigit b = false then .invalidCharacter else .overflow)) ∧
      (∀ i, i < s.srcLen.toNat → s.kindAt (addrAt s.srcAddr i) = .unreadable →
        (∀ j, j < i → s.kindAt (addrAt s.srcAddr j) = .ordinary ∧ ¬ StopsAt w s.input j) →
        ∃ t, run (i + 1) s₁ = .next t ∧ t.busy = false ∧ t.done = true ∧ t.result = 0 ∧ t.err = .busError)

/-! ### The SWAR chunk processor and the fast parser (spec/41_fast_parser.md) -/

/-- R85, the lane law for digit input, at the bias subtraction and at each of the three stages. -/
def Obligations.SwarLaneLaw : Prop :=
  ∀ (bs : List Byte) (d : Nat → Nat), bs.length = 8 → bs.all isDigit = true →
    (∀ k b, bs[k]? = some b → d k = digitValue b) →
    (∀ k, k < 8 → ((swarBias (leWord bs)).extractLsb' (8 * k) 8).toNat = d k) ∧
    (∀ j, j < 4 → ((swarStage1 (swarBias (leWord bs))).extractLsb' (16 * j) 16).toNat =
      10 * d (2 * j) + d (2 * j + 1)) ∧
    (∀ i, i < 2 → ((swarStage2 (swarStage1 (swarBias (leWord bs)))).extractLsb' (32 * i) 32).toNat =
      100 * (10 * d (4 * i) + d (4 * i + 1)) + (10 * d (4 * i + 2) + d (4 * i + 3))) ∧
    (swarCollapse (leWord bs)).toNat = value bs ∧ value bs ≤ 99999999

/-- Bits [63:32] of SwarCollapse are 0 on every word, digits or not (R84). -/
def Obligations.SwarResultFitsThirtyTwoBits : Prop :=
  ∀ w : Word, (swarCollapse w).extractLsb' 32 32 = 0

/-- R88: the unchecked digit step is arithmetic mod 2^64 on any byte; for a digit it is (acc*10 + d) mod 2^64. -/
def Obligations.UncheckedDigitStep : Prop :=
  ∀ (acc : Word) (b : Byte),
    (fastStep acc b).toNat = (acc.toNat * 10 + b.toNat + 2 ^ 64 - 0x30) % 2 ^ 64 ∧
    (isDigit b = true → (fastStep acc b).toNat = (acc.toNat * 10 + digitValue b) % 2 ^ 64)

/-- R91, the CHUNK and DIGIT micro-steps of PARSE_FAST at BUSY = 1, with readable bytes and with an unreadable one.  (`consumed`
is the model's ghost field, log entry 11; device regions are log entry 7's.) -/
def Obligations.FastMicroStep : Prop :=
  ∀ s : State, s.busy = true → s.mode = .fast →
    (s.idx = 0 → 8 ≤ s.len.toNat →
      ((∀ k, k < 8 → s.kindAt (addrAt s.base k) = .ordinary) → exec .parseFast s =
        .next { s with
          acc := swarCollapse (leWord (bytesFrom s.mem s.base 8)), idx := 8,
          consumed := s.consumed ++ bytesFrom s.mem s.base 8 }) ∧
      ((∃ k, k < 8 ∧ s.kindAt (addrAt s.base k) = .unreadable) → (∀ k, k < 8 → s.kindAt (addrAt s.base k) ≠ .device) →
        exec .parseFast s = .next { s with result := 0, busy := false, done := true, err := .busError })) ∧
    (¬ (s.idx = 0 ∧ 8 ≤ s.len.toNat) → s.idx.toNat < s.len.toNat →
      (s.kindAt (s.inputAddr s.idx) = .ordinary → exec .parseFast s =
        .next { s with
          acc := fastStep s.acc (s.mem.read (s.inputAddr s.idx)), idx := s.idx + 1,
          consumed := s.consumed ++ [s.mem.read (s.inputAddr s.idx)] }) ∧
      (s.kindAt (s.inputAddr s.idx) = .unreadable → exec .parseFast s =
        .next { s with result := 0, busy := false, done := true, err := .busError }))

/-- R90, the FINISH micro-step of PARSE_FAST: ACC[31:0] zero-extended where FAST_CONTRACT_ONLY is false or the bytes read
are within the contract; else a free 32-bit draw, zero-extended, whatever it is (log entries 10 and 11).  Either way it ends with NONE. -/
def Obligations.FastFinish : Prop :=
  ∀ s : State, s.busy = true → s.mode = .fast → s.len.toNat ≤ s.idx.toNat →
    ((s.params.fastContractOnly = false ∨ contractOk s.consumed = true) → exec .parseFast s =
      .next { s with result := zext64 (s.acc.extractLsb' 0 32), busy := false, done := true, err := .none }) ∧
    (s.params.fastContractOnly = true → contractOk s.consumed = false → exec .parseFast s =
      .next { s with
        result := zext64 (Config.draw32 s.draws), busy := false, done := true, err := .none, draws := s.draws + 1 })

/-- The contract of R90, spelled out: non-empty, all digits, a value below 2^32. -/
def Obligations.FastContract : Prop :=
  ∀ bs : List Byte, contractOk bs = true ↔ 1 ≤ bs.length ∧ (∀ b ∈ bs, isDigit b = true) ∧ value bs < 2 ^ 32

/-- A whole fast command on a readable input of any bytes (R87, R89 to R92, R99): after fastMicroSteps(LEN) micro-steps it
ends with NONE, having consumed exactly the input, with ACC the datapath value, and RESULT is ACC[31:0], or a free draw
under FAST_CONTRACT_ONLY outside the contract.  (The schedule is empty, log entry 2; the draw and the ghost field consumed
are those of log entries 10 and 11.) -/
def Obligations.FastCommandOutcome : Prop :=
  ∀ s : State, s.busy = false → s.turns = [] → s.InputOrdinary →
    ∃ s₁ t, exec .parseFast s = .next s₁ ∧ run (fastMicroSteps s.srcLen.toNat) s₁ = .next t ∧
      t.busy = false ∧ t.done = true ∧ t.err = .none ∧ t.consumed = s.input ∧ t.acc = fastDatapath s.input ∧
      t.result = (if contractOk s.input = false ∧ s.params.fastContractOnly = true then zext64 (Config.draw32 s.draws)
        else narrow32 (fastDatapath s.input)) ∧
      t.mem = s.mem ∧ t.srcAddr = s.srcAddr ∧ t.srcLen = s.srcLen

/-- R93, the digit-only law: on every all-digit input of any length the datapath result is value(s) mod 2^32, exactly
value(s) when that is below 2^32. -/
def Obligations.DigitOnlyLaw : Prop :=
  ∀ bs : List Byte, bs.all isDigit = true →
    (fastDatapath bs).toNat = value bs % 2 ^ 64 ∧ (narrow32 (fastDatapath bs)).toNat = value bs % 2 ^ 32 ∧
    (value bs < 2 ^ 32 → (narrow32 (fastDatapath bs)).toNat = value bs)

/-- R94, differential equivalence, on whole commands over the same readable all-digit input: with value(s) <= 4294967295
PARSE_FAST (the input non-empty, or FAST_CONTRACT_ONLY false) and PARSE_CHECKED32 both end with NONE and value(s); above
it PARSE_CHECKED32 reports OVERFLOW and PARSE_FAST (FAST_CONTRACT_ONLY false) returns value(s) mod 2^32.  (The schedule is
empty, log entry 2.) -/
def Obligations.FastAndChecked32Agree : Prop :=
  ∀ s : State, s.busy = false → s.turns = [] → s.InputOrdinary → s.input.all isDigit = true →
    (s.params.fastContractOnly = false ∨ (1 ≤ s.input.length ∧ value s.input ≤ 4294967295)) →
    ∃ f₁ f c₁ c n, exec .parseFast s = .next f₁ ∧ run (fastMicroSteps s.srcLen.toNat) f₁ = .next f ∧
      exec .parseChecked32 s = .next c₁ ∧ run n c₁ = .next c ∧
      f.busy = false ∧ f.err = .none ∧ c.busy = false ∧
      (value s.input ≤ 4294967295 → c.err = .none ∧ f.result.toNat = value s.input ∧ c.result = f.result) ∧
      (4294967295 < value s.input → c.err = .overflow ∧ c.result = 0 ∧ f.result.toNat = value s.input % 2 ^ 32)

/-- R97: a micro-step that ends a fast command gives NONE or BUS_ERROR, never INVALID_CHARACTER or OVERFLOW, on any
input. -/
def Obligations.FastNeverRaisesParseErrors : Prop :=
  ∀ s t : State, s.busy = true → s.mode = .fast → exec .parseFast s = .next t → t.busy = false →
    t.err = .none ∨ t.err = .busError

/-! ### Completion and errors (spec/60_exceptions.md) -/

/-- R103: whatever ends with a code other than NONE leaves RESULT 0: a micro-step of any command, and a CMD write. -/
def Obligations.ErrorsLeaveResultZero : Prop :=
  (∀ (i : Instr) (s t : State), s.busy = true → exec i s = .next t → t.busy = false → t.err ≠ .none → t.result = 0) ∧
  (∀ (s t : State) (v : Word), s.busy = false → hostStep (.write 0x00 v) s = .next t → t.busy = false → t.result = 0)

/-- R106: an unreadable byte ends a command, checked or fast, in the micro-step whose read fails, with BUS_ERROR and
RESULT 0; ACC and IDX are not updated; in a CHUNK any one of the eight addresses is enough.  (No byte of the read is in a
device region, log entry 7.) -/
def Obligations.UnreadableByteEndsWithBusError : Prop :=
  ∀ s : State, s.busy = true →
    (s.mode = .checked → s.idx ≠ s.len → s.memReadable (s.inputAddr s.idx) = false →
      engineTurn s = .next { s with result := 0, busy := false, done := true, err := .busError }) ∧
    (s.mode = .fast → ¬ (s.idx = 0 ∧ 8 ≤ s.len.toNat) → s.idx.toNat < s.len.toNat →
      s.memReadable (s.inputAddr s.idx) = false →
      engineTurn s = .next { s with result := 0, busy := false, done := true, err := .busError }) ∧
    (∀ k, s.mode = .fast → s.idx = 0 → 8 ≤ s.len.toNat → k < 8 → s.memReadable (addrAt s.base k) = false →
      (∀ j, j < 8 → s.kindAt (addrAt s.base j) ≠ .device) →
      engineTurn s = .next { s with result := 0, busy := false, done := true, err := .busError })

/-- The model's only stop (R43, spec/93_implementation_defined.md U12 `refuse`; log entry 7, the model's choice): a
micro-step whose read meets a device region is refused by name. -/
def Obligations.DeviceReadsAreRefused : Prop :=
  ∀ s : State, s.busy = true →
    (s.mode = .checked → s.idx ≠ s.len → s.kindAt (s.inputAddr s.idx) = .device →
      engineTurn s = .refused (.deviceRead (s.inputAddr s.idx))) ∧
    (s.mode = .fast → ¬ (s.idx = 0 ∧ 8 ≤ s.len.toNat) → s.idx.toNat < s.len.toNat →
      s.kindAt (s.inputAddr s.idx) = .device → engineTurn s = .refused (.deviceRead (s.inputAddr s.idx))) ∧
    (s.mode = .fast → s.idx = 0 → 8 ≤ s.len.toNat → (∃ k, k < 8 ∧ s.kindAt (addrAt s.base k) = .device) →
      ∃ a, s.kindAt a = .device ∧ engineTurn s = .refused (.deviceRead a))

/-- The machine stops nowhere else: a step of any state is a next state, or a refusal of a device read at an address that
the platform says is one. -/
def Obligations.StepsStopOnlyAtDevices : Prop :=
  ∀ s : State, (∃ t, step s = .next t) ∨ ∃ a, step s = .refused (.deviceRead a) ∧ s.kindAt a = .device

/-- R109 over the whole machine: with BUSY = 0, every step but a CMD write and a reset keeps ERR, DONE and RESULT, an Engine
turn (log entry 3) among them, whatever step the Host has next. -/
def Obligations.ErrAndDoneAreSticky : Prop :=
  ∀ s t : State, s.busy = false → (nextTurn s).1 ≠ .reset →
    ((nextTurn s).1 = .host → ∀ op ops, s.host = op :: ops → op ≠ .reset ∧ ∀ v, op ≠ .write 0x00 v) →
    step s = .next t → t.done = s.done ∧ t.err = s.err ∧ t.result = s.result

/-! ### Whole-machine claims (spec/10_state.md R31, R32, spec/70_reset_and_hazards.md) -/

/-- The reset state has the invariant. -/
def Obligations.ResetHasInvariant : Prop := Invariant State.reset

/-- Every step of the machine, the Host's, the Engine's or a reset, keeps the invariant: R31 (a) to (d), what the flags and
RESULT can be, what ACC holds of the bytes consumed, and the canonical form of memory. -/
def Obligations.StepKeepsInvariant : Prop :=
  ∀ s t : State, Invariant s → step s = .next t → Invariant t

/-- R31: in every state that a run from a clean entry reaches, under any Host program and any schedule, (a) BUSY = 1 implies
DONE = 0, (b) IDX <= LEN, (c) a running checked command has ACC <= MAX_W, (d) a running fast command with LEN >= 8 has
IDX = 0 or IDX >= 8, and (e) BUSY = 0 implies that no Engine step is enabled: an Engine turn changes nothing.  IDX grows by
at most 8 in an Engine step.  (The spec has no Engine step at BUSY = 0; that a turn of the Engine there changes nothing is the
model's choice, log entry 3.) -/
def Obligations.ReachableStatesMeetR31 : Prop :=
  ∀ (n : Nat) (s t : State), CleanEntry s → run n s = .next t →
    (t.busy = true → t.done = false) ∧
    t.idx.toNat ≤ t.len.toNat ∧
    (t.mode = .checked → t.busy = true → t.acc.toNat ≤ maxW t.width) ∧
    (t.mode = .fast → t.busy = true → 8 ≤ t.len.toNat → t.idx = 0 ∨ 8 ≤ t.idx.toNat) ∧
    (t.busy = false → engineTurn t = .next t) ∧
    (∀ u, engineTurn t = .next u → t.idx.toNat ≤ u.idx.toNat ∧ u.idx.toNat ≤ t.idx.toNat + 8)

/-- The STATUS values that a state with the invariant can show are the seven of spec/95_test_vectors.md section 2.8. -/
def Obligations.StatusValues : Prop :=
  ∀ s : State, Invariant s →
    s.statusWord = 0x00 ∨ s.statusWord = 0x01 ∨ s.statusWord = 0x02 ∨ s.statusWord = 0x06 ∨ s.statusWord = 0x0A ∨
    s.statusWord = 0x0E ∨ s.statusWord = 0x12

/-- R32: two states with BUSY = 0 that agree on all that the Host can observe, and may differ in MODE, W, BASE, LEN, IDX and
ACC, cannot be told apart: after any number of steps both are still alike in all that can be observed, the values returned
by reads among it, and while a command runs they agree on the Engine's state too. -/
def Obligations.EngineStateIsNotObservable : Prop :=
  ∀ (n : Nat) (s t : State), s.busy = false → SameObserved s t →
    SameOutcome (fun s' t' => SameObserved s' t' ∧ (s'.busy = true → SameEngine s' t')) (run n s) (run n t)

/-- R78, R99 and R127: with the schedule at its end (the Engine goes while it is enabled) and no device in the input, a
running command finishes within LEN + 1 micro-steps.  (The rule for an empty schedule is log entry 2, devices are log entry
7.) -/
def Obligations.EveryCommandFinishes : Prop :=
  ∀ s : State, EngineInvariant s → s.busy = true → s.turns = [] →
    (∀ k, k < s.len.toNat → s.kindAt (addrAt s.base k) ≠ .device) →
    ∃ n t, n ≤ s.len.toNat + 1 ∧ run n s = .next t ∧ t.busy = false ∧ t.done = true

/-- The Host program PARSE of R60 (WR SRC_ADDR; WR SRC_LEN; WR CMD; WAIT; RD RESULT), with PARSE_FAST or PARSE_CHECKED32 and
a readable input within the fast contract, reads back the value under EVERY schedule of Host and Engine turns: whenever
the Host has come to its end, the last value read is value(s), and the last STATUS read was 0x02 (R94, R119, R120). -/
def Obligations.ParseProgramReadsTheValue : Prop :=
  ∀ (c : Instr) (a n : Word) (s t : State) (k : Nat), c = .parseFast ∨ c = .parseChecked32 →
    s.busy = false → .reset ∉ s.turns → s.host = (HostLine.parse c a n).steps →
    (∀ j, j < n.toNat → s.kindAt (addrAt a j) = .ordinary) → contractOk (bytesFrom s.mem a n.toNat) = true →
    run k s = .next t → t.host = [] →
    t.reads[0]? = some (BitVec.ofNat 64 (value (bytesFrom s.mem a n.toNat))) ∧ t.reads[1]? = some 0x02
end

