-- ==== Sys2Proof/Laws/Datapath.lean ====
section
/-! SUPPORT. Arithmetic of the datapath: digit values, `value` of a sequence and of its prefixes, the width constants, and
how a mask acts on lanes. -/

namespace Sys2Proof.Machine

theorem isDigit_iff {b : Byte} : isDigit b = true ↔ 0x30 ≤ b.toNat ∧ b.toNat ≤ 0x39 := by simp [isDigit]

theorem digitValue_le {b : Byte} (h : isDigit b = true) : digitValue b ≤ 9 := by
  have := isDigit_iff.mp h; unfold digitValue; omega

@[simp] theorem value_nil : value [] = 0 := rfl

/-- One more byte at the end: the value so far moves up one decimal place. -/
@[simp] theorem value_snoc (bs : List Byte) (b : Byte) : value (bs ++ [b]) = value bs * 10 + digitValue b := by
  simp [value]

theorem Width.bits_le (w : Width) : w.bits ≤ 64 := by cases w <;> decide

/-- MAX_W is ten times DIV_W and MOD_W more. -/
theorem maxW_eq (w : Width) : maxW w = divW w * 10 + modW w := by cases w <;> decide

theorem modW_lt (w : Width) : modW w ≤ 9 := by cases w <;> decide

theorem maxW_lt (w : Width) : maxW w < 2 ^ 64 := by cases w <;> decide

/-- What `Accept_W` says, as a proposition (R66). -/
theorem accepts_iff {w : Width} {acc d : Nat} :
    accepts w acc d = true ↔ acc < divW w ∨ (acc = divW w ∧ d ≤ modW w) := by simp [accepts]

@[simp] theorem leWord_nil : leWord [] = 0 := rfl

@[simp] theorem leWord_cons (b : Byte) (bs : List Byte) : leWord (b :: bs) = zext64 b + leWord bs <<< 8 := rfl

/-- A mask on a number made of a low part below 2^k and a high part masks the parts. -/
theorem and_lanes {k a b x y : Nat} (ha : a < 2 ^ k) (hx : x < 2 ^ k) :
    (a + 2 ^ k * b) &&& (x + 2 ^ k * y) = (a &&& x) + 2 ^ k * (b &&& y) := by
  have hand : a &&& x < 2 ^ k := Nat.and_lt_two_pow a hx
  rw [Nat.add_comm a, Nat.add_comm x, Nat.add_comm (a &&& x)]
  apply Nat.eq_of_testBit_eq
  intro i
  rw [Nat.testBit_and, Nat.testBit_two_pow_mul_add b ha, Nat.testBit_two_pow_mul_add y hx,
    Nat.testBit_two_pow_mul_add (b &&& y) hand]
  split <;> simp [Nat.testBit_and]

/-! ### Lanes of a word -/

/-- The number of a chunk word of at most eight bytes (R37). -/
theorem leWord_toNat (bs : List Byte) : ∀ (_ : bs.length ≤ 8), (leWord bs).toNat = bs.foldr (fun b v => b.toNat + 256 * v) 0 ∧
    bs.foldr (fun b v => b.toNat + 256 * v) 0 < 256 ^ bs.length := by
  induction bs with
  | nil => simp
  | cons b bs ih =>
    intro h
    simp only [List.length_cons] at h
    have ⟨i1, i2⟩ := ih (by omega)
    have hb := b.isLt
    have hp : (256:Nat) ^ bs.length ≤ 256 ^ 7 := Nat.pow_le_pow_right (by omega) (by omega)
    simp only [leWord_cons, BitVec.toNat_add, BitVec.toNat_shiftLeft, BitVec.toNat_setWidth, List.foldr_cons, List.length_cons, pow_succ, i1, Nat.shiftLeft_eq]
    omega

/-- Lane `k`, of `m` bits, of a number built from lanes that fit. -/
theorem lane_of_foldr (m : Nat) : ∀ (l : List Nat) (_ : ∀ x ∈ l, x < 2 ^ m) (k : Nat) (hk : k < l.length),
    l.foldr (fun d v => d + 2 ^ m * v) 0 / 2 ^ (m * k) % 2 ^ m = l[k]
  | d :: l, h, 0, _ => by
    have : d < 2 ^ m := h d (by simp)
    simp only [List.foldr_cons, Nat.mul_zero, Nat.pow_zero, Nat.div_one, Nat.add_mul_mod_self_left, List.getElem_cons_zero]
    exact Nat.mod_eq_of_lt this
  | d :: l, h, k+1, hk => by
    have hd : d < 2 ^ m := h d (by simp)
    have ih := lane_of_foldr m l (fun x hx => h x (by simp [hx])) k (by simpa using hk)
    rw [show m * (k+1) = m + m * k by ring, Nat.pow_add, ← Nat.div_div_eq_div_mul]
    simp only [List.foldr_cons, List.getElem_cons_succ]
    rw [Nat.add_mul_div_left _ _ (Nat.two_pow_pos m), Nat.div_eq_of_lt hd, Nat.zero_add, ih]

/-- A byte under the mask 0xFF is itself. -/
theorem and_0xFF {a : Nat} (h : a < 2^8) : a &&& 0xFF = a := by
  have := Nat.and_two_pow_sub_one_eq_mod a 8
  norm_num at this; rw [this]; omega

/-- A 16-bit value under the mask 0xFFFF is itself. -/
theorem and_0xFFFF {a : Nat} (h : a < 2^16) : a &&& 0xFFFF = a := by
  have := Nat.and_two_pow_sub_one_eq_mod a 16
  norm_num at this; rw [this]; omega

/-- The lowest byte lane splits off under a mask. -/
theorem mask8 {a b x y : Nat} (ha : a < 256) (hx : x < 256) : (a + 256 * b) &&& (x + 256 * y) = (a &&& x) + 256 * (b &&& y) :=
  and_lanes (k := 8) ha hx

/-- The lowest 16-bit lane splits off under a mask. -/
theorem mask16 {a b x y : Nat} (ha : a < 65536) (hx : x < 65536) : (a + 65536 * b) &&& (x + 65536 * y) = (a &&& x) + 65536 * (b &&& y) :=
  and_lanes (k := 16) ha hx

/-- The lowest 32-bit lane splits off under a mask. -/
theorem mask32 {a b x y : Nat} (ha : a < 4294967296) (hx : x < 4294967296) : (a + 4294967296 * b) &&& (x + 4294967296 * y) = (a &&& x) + 4294967296 * (b &&& y) :=
  and_lanes (k := 32) ha hx

/-- The mask of stage 1 (R81) keeps the even byte lanes. -/
theorem stage1_mask (a0 a1 a2 a3 a4 a5 a6 a7 : Nat)
    (h0 : a0 < 256) (h1 : a1 < 256) (h2 : a2 < 256) (h3 : a3 < 256) (h4 : a4 < 256) (h5 : a5 < 256) (h6 : a6 < 256) :
    (a0 + 256*(a1 + 256*(a2 + 256*(a3 + 256*(a4 + 256*(a5 + 256*(a6 + 256*a7))))))) &&&
      (255 + 256*(0 + 256*(255 + 256*(0 + 256*(255 + 256*(0 + 256*(255 + 256*0))))))) =
    a0 + 256*(0 + 256*(a2 + 256*(0 + 256*(a4 + 256*(0 + 256*a6))))) := by
  rw [mask8 h0 (by norm_num), mask8 h1 (by norm_num), mask8 h2 (by norm_num), mask8 h3 (by norm_num),
    mask8 h4 (by norm_num), mask8 h5 (by norm_num), mask8 h6 (by norm_num),
    and_0xFF h0, and_0xFF h2, and_0xFF h4, and_0xFF h6]
  simp only [Nat.and_zero, Nat.mul_zero, Nat.add_zero]

/-- The mask of stage 2 (R82) keeps the even 16-bit lanes. -/
theorem stage2_mask (a0 a1 a2 a3 : Nat) (h0 : a0 < 65536) (h1 : a1 < 65536) (h2 : a2 < 65536) :
    (a0 + 65536*(a1 + 65536*(a2 + 65536*a3))) &&& (65535 + 65536*(0 + 65536*(65535 + 65536*0))) =
    a0 + 65536*(0 + 65536*a2) := by
  rw [mask16 h0 (by norm_num), mask16 h1 (by norm_num), mask16 h2 (by norm_num), and_0xFFFF h0, and_0xFFFF h2]
  simp only [Nat.and_zero, Nat.mul_zero, Nat.add_zero]

end Sys2Proof.Machine
end

