-- ==== Sys2Proof/Laws/Memory.lean ====
section
/-! SUPPORT. The basic laws of the input memory: a read after a write, and that writes keep the canonical form. -/

namespace Sys2Proof.Machine

/-- No entry of the list is at or below address `n`. -/
def Memory.above (n : Nat) (m : Memory) : Prop := ∀ c ∈ m, n < c.1

theorem Memory.readAt_of_above {n : Nat} : ∀ {m : Memory}, Memory.above n m → Memory.readAt m n = Memory.unlisted
  | [], _ => rfl
  | (k, c) :: rest, h => by
    have hk : n < k := h (k, c) (by simp)
    have hr : Memory.above n rest := fun d hd => h d (by simp [hd])
    simp [Memory.readAt, Nat.ne_of_gt hk, Memory.readAt_of_above hr]

theorem Memory.above_of_pairwise {k : Nat} {c : Byte} {rest : Memory}
    (h : List.Pairwise (fun c d : Host.Cell => c.1 < d.1) ((k, c) :: rest)) : Memory.above k rest :=
  fun d hd => (List.pairwise_cons.mp h).1 d hd

theorem Memory.readAt_writeAt_same (n : Nat) (b : Byte) : ∀ {m : Memory},
    m.Pairwise (fun c d => c.1 < d.1) → Memory.readAt (Memory.writeAt m n b) n = b
  | [], _ => by
    by_cases hb : b = Memory.unlisted <;> simp [Memory.writeAt, Memory.readAt, hb]
  | (k, c) :: rest, h => by
    have hr := Memory.above_of_pairwise h
    have ih := Memory.readAt_writeAt_same n b (List.pairwise_cons.mp h).2
    by_cases hlt : n < k
    · by_cases hb : b = Memory.unlisted
      · have : Memory.above n ((k, c) :: rest) := by
          intro d hd
          rcases List.mem_cons.mp hd with rfl | hd
          · exact hlt
          · exact Nat.lt_trans hlt (hr d hd)
        have hw : Memory.writeAt ((k, c) :: rest) n b = (k, c) :: rest := by simp [Memory.writeAt, hlt, hb]
        rw [hw, Memory.readAt_of_above this, hb]
      · simp [Memory.writeAt, hlt, hb, Memory.readAt]
    · by_cases heq : n = k
      · subst heq
        by_cases hb : b = Memory.unlisted
        · have hw : Memory.writeAt ((n, c) :: rest) n b = rest := by simp [Memory.writeAt, hb]
          rw [hw, Memory.readAt_of_above hr, hb]
        · simp [Memory.writeAt, hb, Memory.readAt]
      · simp [Memory.writeAt, hlt, heq, Memory.readAt, Ne.symm heq, ih]

theorem Memory.readAt_writeAt_other {n x : Nat} (b : Byte) (hx : x ≠ n) : ∀ m : Memory,
    Memory.readAt (Memory.writeAt m n b) x = Memory.readAt m x
  | [] => by
    by_cases hb : b = Memory.unlisted <;> simp [Memory.writeAt, Memory.readAt, hb, Ne.symm hx]
  | (k, c) :: rest => by
    have ih := Memory.readAt_writeAt_other b hx rest
    by_cases hlt : n < k
    · by_cases hb : b = Memory.unlisted <;> simp [Memory.writeAt, hlt, hb, Memory.readAt, Ne.symm hx]
    · by_cases heq : n = k
      · subst heq
        by_cases hb : b = Memory.unlisted <;> simp [Memory.writeAt, hb, Memory.readAt, Ne.symm hx]
      · simp [Memory.writeAt, hlt, heq, Memory.readAt, ih]

theorem Memory.mem_writeAt {n : Nat} {b : Byte} {d : Host.Cell} : ∀ {m : Memory},
    d ∈ Memory.writeAt m n b → d ∈ m ∨ (d = (n, b) ∧ b ≠ Memory.unlisted)
  | [], h => by
    by_cases hb : b = Memory.unlisted <;> simp_all [Memory.writeAt]
  | (k, c) :: rest, h => by
    have ih := @Memory.mem_writeAt n b d rest
    by_cases hlt : n < k
    · by_cases hb : b = Memory.unlisted
      · simp [Memory.writeAt, hlt, hb] at h; simp [h]
      · simp [Memory.writeAt, hlt, hb] at h
        rcases h with h | h | h <;> simp [h, hb]
    · by_cases heq : n = k
      · by_cases hb : b = Memory.unlisted
        · simp [Memory.writeAt, heq, hb] at h; simp [h]
        · simp [Memory.writeAt, heq, hb] at h
          rcases h with h | h <;> simp [h, hb, heq]
      · simp only [Memory.writeAt, hlt, heq, if_false, List.mem_cons] at h
        rcases h with h | h
        · simp [h]
        · rcases ih h with h | h <;> simp [h]

theorem Memory.pairwise_writeAt (n : Nat) (b : Byte) : ∀ {m : Memory},
    m.Pairwise (fun c d => c.1 < d.1) → (Memory.writeAt m n b).Pairwise (fun c d => c.1 < d.1)
  | [], _ => by
    by_cases hb : b = Memory.unlisted <;> simp [Memory.writeAt, hb]
  | (k, c) :: rest, h => by
    have hr := Memory.above_of_pairwise h
    have hp := (List.pairwise_cons.mp h).2
    by_cases hlt : n < k
    · by_cases hb : b = Memory.unlisted
      · simpa [Memory.writeAt, hlt, hb] using h
      · have : Memory.above n ((k, c) :: rest) := by
          intro d hd
          rcases List.mem_cons.mp hd with rfl | hd
          · exact hlt
          · exact Nat.lt_trans hlt (hr d hd)
        simp only [Memory.writeAt, hlt, hb, if_true, if_false]
        exact List.pairwise_cons.mpr ⟨this, h⟩
    · by_cases heq : n = k
      · by_cases hb : b = Memory.unlisted
        · simpa [Memory.writeAt, heq, hb] using hp
        · simp only [Memory.writeAt, heq, Nat.lt_irrefl, hb, if_true, if_false]
          exact List.pairwise_cons.mpr ⟨heq ▸ hr, hp⟩
      · simp only [Memory.writeAt, hlt, heq, if_false]
        refine List.pairwise_cons.mpr ⟨fun d hd => ?_, Memory.pairwise_writeAt n b hp⟩
        rcases Memory.mem_writeAt hd with hd | ⟨rfl, -⟩
        · exact hr d hd
        · exact lt_of_le_of_ne (Nat.not_lt.mp hlt) (Ne.symm heq)

/-- A read after a write to the same address gives the value written. -/
theorem Memory.read_write_same {m : Memory} (h : Memory.wf m) (a : Addr) (b : Byte) : (m.write a b).read a = b :=
  Memory.readAt_writeAt_same a.toNat b h.1

/-- A write leaves every other address as it was. -/
theorem Memory.read_write_other (m : Memory) {a c : Addr} (b : Byte) (h : c ≠ a) : (m.write a b).read c = m.read c :=
  Memory.readAt_writeAt_other b (fun he => h (BitVec.eq_of_toNat_eq he)) m

/-- A write keeps the canonical form. -/
theorem Memory.write_wf {m : Memory} (h : Memory.wf m) (a : Addr) (b : Byte) : Memory.wf (m.write a b) := by
  refine ⟨Memory.pairwise_writeAt a.toNat b h.1, fun c hc => ?_⟩
  rcases Memory.mem_writeAt hc with hc | ⟨rfl, hb⟩
  · exact h.2 c hc
  · exact ⟨a.isLt, hb⟩

/-- The empty list, the memory of the reset state, is in canonical form. -/
theorem Memory.wf_nil : Memory.wf [] := ⟨List.Pairwise.nil, by simp⟩

end Sys2Proof.Machine
end

