-- ==== Sys2Proof/Laws/Operands.lean ====
section
/-! SUPPORT. What the read primitives give: the one-byte read by the kind of its address, and the reads of bytes in a row
(spec/20_memory.md R35 to R38). -/

namespace Sys2Proof.Machine

theorem State.memRead_ordinary {s : State} {a : Addr} (h : s.kindAt a = .ordinary) :
    s.memRead a = .value (s.mem.read a) := by simp [State.memRead, h]

theorem State.memRead_unreadable {s : State} {a : Addr} (h : s.kindAt a = .unreadable) :
    s.memRead a = .unreadable := by simp [State.memRead, h]

theorem State.memRead_device {s : State} {a : Addr} (h : s.kindAt a = .device) : s.memRead a = .device a := by
  simp [State.memRead, h]

/-- What a one-byte read gave says what its address is. -/
theorem State.memRead_value_inv {s : State} {a : Addr} {b : Byte} (h : s.memRead a = .value b) :
    s.kindAt a = .ordinary ∧ b = s.mem.read a := by
  unfold State.memRead at h
  cases hk : s.kindAt a <;> simp [hk] at h
  exact ⟨rfl, h.symm⟩

theorem State.memRead_device_inv {s : State} {a c : Addr} (h : s.memRead a = .device c) :
    c = a ∧ s.kindAt a = .device := by
  unfold State.memRead at h
  cases hk : s.kindAt a <;> simp [hk] at h
  exact ⟨h.symm, rfl⟩

@[simp] theorem addrAt_zero (a : Addr) : addrAt a 0 = a := by simp [addrAt]

theorem addrAt_succ (a : Addr) (k : Nat) : addrAt a (k + 1) = addrAt (a + 1) k := by
  simp only [addrAt, BitVec.ofNat_add, BitVec.add_assoc]
  rw [BitVec.add_comm (BitVec.ofNat 64 k)]
  rfl

/-- The address of input byte `i` (R40) is the one `i` places after BASE. -/
theorem State.inputAddr_eq (s : State) (i : Word) : s.inputAddr i = addrAt s.base i.toNat := by
  simp [State.inputAddr, addrAt]

@[simp] theorem bytesFrom_zero (m : Memory) (a : Addr) : bytesFrom m a 0 = [] := rfl

theorem State.readBytes_succ (s : State) (a : Addr) (n : Nat) :
    s.readBytes a (n + 1) = (s.memRead a).cons (s.readBytes (a + 1) n) := rfl

theorem bytesFrom_succ (m : Memory) (a : Addr) (n : Nat) :
    bytesFrom m a (n + 1) = m.read a :: bytesFrom m (a + 1) n := by
  simp only [bytesFrom, List.range_succ_eq_map, List.map_cons, List.map_map, addrAt_zero]
  congr 1
  apply List.map_congr_left
  intro k _
  exact congrArg m.read (addrAt_succ a k)

@[simp] theorem length_bytesFrom (m : Memory) (a : Addr) (n : Nat) : (bytesFrom m a n).length = n := by
  simp [bytesFrom]

theorem getElem?_bytesFrom (m : Memory) (a : Addr) {n k : Nat} (h : k < n) :
    (bytesFrom m a n)[k]? = some (m.read (addrAt a k)) := by
  simp [bytesFrom, h]

theorem take_bytesFrom (m : Memory) (a : Addr) {n k : Nat} (h : k ≤ n) :
    (bytesFrom m a n).take k = bytesFrom m a k := by
  simp only [bytesFrom, ← List.map_take, List.take_range, Nat.min_eq_left h]

theorem bytesFrom_snoc (m : Memory) (a : Addr) (n : Nat) :
    bytesFrom m a (n + 1) = bytesFrom m a n ++ [m.read (addrAt a n)] := by
  simp [bytesFrom, List.range_succ]

/-- Two addresses fewer than 2^64 places after one address are different. -/
theorem addrAt_injective {a : Addr} {j k : Nat} (hj : j < 2 ^ 64) (hk : k < 2 ^ 64) (h : addrAt a j = addrAt a k) :
    j = k := by
  have h' := congrArg BitVec.toNat (add_left_cancel h)
  simp only [BitVec.toNat_ofNat] at h'
  rwa [Nat.mod_eq_of_lt hj, Nat.mod_eq_of_lt hk] at h'

/-- A write of byte `k` of a row of bytes is seen there and nowhere else in the row. -/
theorem bytesFrom_write {m : Memory} (hm : Memory.wf m) (a : Addr) (b : Byte) {k n : Nat} (hn : n ≤ 2 ^ 64) (hk : k < n) :
    bytesFrom (m.write (addrAt a k) b) a n = (bytesFrom m a n).set k b := by
  refine List.ext_getElem (by simp) fun j h1 _ => ?_
  have hj : j < n := by simpa using h1
  rw [List.getElem_set]
  by_cases h : k = j
  · subst h
    simp [bytesFrom, Memory.read_write_same hm]
  · simp only [bytesFrom, List.getElem_map, List.getElem_range, h, if_false]
    exact Memory.read_write_other _ _ fun e => h (addrAt_injective (by omega) (by omega) e).symm

/-- Reads of readable bytes in a row give the bytes that memory holds there. -/
theorem State.readBytes_ordinary (s : State) : ∀ (n : Nat) (a : Addr),
    (∀ k, k < n → s.kindAt (addrAt a k) = .ordinary) → s.readBytes a n = .value (bytesFrom s.mem a n)
  | 0, _, _ => rfl
  | n + 1, a, h => by
    have h0 : s.kindAt a = .ordinary := by simpa using h 0 (by omega)
    have ih := State.readBytes_ordinary s n (a + 1) (fun k hk => by
      rw [← addrAt_succ]; exact h (k + 1) (by omega))
    rw [State.readBytes_succ, State.memRead_ordinary h0, ih, bytesFrom_succ]; rfl

/-- What the reads of bytes in a row can give: all bytes, where every address is ordinary; `unreadable`, where one is and
none is a device; or a device among them. -/
theorem State.readBytes_cases (s : State) : ∀ (n : Nat) (a : Addr),
    ((∀ k, k < n → s.kindAt (addrAt a k) = .ordinary) ∧ s.readBytes a n = .value (bytesFrom s.mem a n)) ∨
    ((∃ k, k < n ∧ s.kindAt (addrAt a k) = .unreadable) ∧ (∀ k, k < n → s.kindAt (addrAt a k) ≠ .device) ∧
      s.readBytes a n = .unreadable) ∨
    (∃ k, k < n ∧ s.kindAt (addrAt a k) = .device ∧ s.readBytes a n = .device (addrAt a k))
  | 0, _ => .inl ⟨by simp, rfl⟩
  | n + 1, a => by
    have lift : ∀ {k : AddrKind}, s.kindAt a = k → s.kindAt (addrAt a 0) = k := by simp
    have shift : ∀ k, s.kindAt (addrAt a (k + 1)) = s.kindAt (addrAt (a + 1) k) := fun k => by rw [addrAt_succ]
    cases hk : s.kindAt a with
    | device =>
      refine .inr (.inr ⟨0, by omega, lift hk, ?_⟩)
      rw [State.readBytes_succ, State.memRead_device hk, addrAt_zero]; rfl
    | ordinary =>
      rcases State.readBytes_cases s n (a + 1) with ⟨ho, hr⟩ | ⟨⟨k, hk1, hk2⟩, hd, hr⟩ | ⟨k, hk1, hk2, hr⟩
      · refine .inl ⟨fun k hkn => ?_, ?_⟩
        · cases k with
          | zero => exact lift hk
          | succ k => rw [shift]; exact ho k (by omega)
        · rw [State.readBytes_succ, State.memRead_ordinary hk, hr, bytesFrom_succ]; rfl
      · refine .inr (.inl ⟨⟨k + 1, by omega, by rw [shift]; exact hk2⟩, fun j hj => ?_, ?_⟩)
        · cases j with
          | zero => simp [hk]
          | succ j => rw [shift]; exact hd j (by omega)
        · rw [State.readBytes_succ, State.memRead_ordinary hk, hr]; rfl
      · refine .inr (.inr ⟨k + 1, by omega, by rw [shift]; exact hk2, ?_⟩)
        rw [addrAt_succ]
        rw [State.readBytes_succ, State.memRead_ordinary hk, hr]; rfl
    | unreadable =>
      rcases State.readBytes_cases s n (a + 1) with ⟨ho, hr⟩ | ⟨⟨k, hk1, hk2⟩, hd, hr⟩ | ⟨k, hk1, hk2, hr⟩
      · refine .inr (.inl ⟨⟨0, by omega, lift hk⟩, fun j hj => ?_, ?_⟩)
        · cases j with
          | zero => simp [hk]
          | succ j => rw [shift, ho j (by omega)]; simp
        · rw [State.readBytes_succ, State.memRead_unreadable hk, hr]; rfl
      · refine .inr (.inl ⟨⟨0, by omega, lift hk⟩, fun j hj => ?_, ?_⟩)
        · cases j with
          | zero => simp [hk]
          | succ j => rw [shift]; exact hd j (by omega)
        · rw [State.readBytes_succ, State.memRead_unreadable hk, hr]; rfl
      · refine .inr (.inr ⟨k + 1, by omega, by rw [shift]; exact hk2, ?_⟩)
        rw [addrAt_succ]
        rw [State.readBytes_succ, State.memRead_unreadable hk, hr]; rfl

end Sys2Proof.Machine
end

