-- ==== Sys2Proof/Laws/State.lean ====
section
/-! SUPPORT. One lemma per field per update of State, each true by rfl, so that no proof unfolds a record update. -/

namespace Sys2Proof.Machine

/-! ### The flags at a start (R26) -/

@[simp] theorem State.flagsStarted_srcAddr (s : State) : (s.flagsStarted).srcAddr = s.srcAddr := rfl
@[simp] theorem State.flagsStarted_srcLen (s : State) : (s.flagsStarted).srcLen = s.srcLen := rfl
@[simp] theorem State.flagsStarted_result (s : State) : (s.flagsStarted).result = s.result := rfl
@[simp] theorem State.flagsStarted_busy (s : State) : (s.flagsStarted).busy = true := rfl
@[simp] theorem State.flagsStarted_done (s : State) : (s.flagsStarted).done = false := rfl
@[simp] theorem State.flagsStarted_err (s : State) : (s.flagsStarted).err = .none := rfl
@[simp] theorem State.flagsStarted_mode (s : State) : (s.flagsStarted).mode = s.mode := rfl
@[simp] theorem State.flagsStarted_width (s : State) : (s.flagsStarted).width = s.width := rfl
@[simp] theorem State.flagsStarted_base (s : State) : (s.flagsStarted).base = s.base := rfl
@[simp] theorem State.flagsStarted_len (s : State) : (s.flagsStarted).len = s.len := rfl
@[simp] theorem State.flagsStarted_idx (s : State) : (s.flagsStarted).idx = s.idx := rfl
@[simp] theorem State.flagsStarted_acc (s : State) : (s.flagsStarted).acc = s.acc := rfl
@[simp] theorem State.flagsStarted_consumed (s : State) : (s.flagsStarted).consumed = s.consumed := rfl
@[simp] theorem State.flagsStarted_mem (s : State) : (s.flagsStarted).mem = s.mem := rfl
@[simp] theorem State.flagsStarted_params (s : State) : (s.flagsStarted).params = s.params := rfl
@[simp] theorem State.flagsStarted_host (s : State) : (s.flagsStarted).host = s.host := rfl
@[simp] theorem State.flagsStarted_turns (s : State) : (s.flagsStarted).turns = s.turns := rfl
@[simp] theorem State.flagsStarted_reads (s : State) : (s.flagsStarted).reads = s.reads := rfl
@[simp] theorem State.flagsStarted_draws (s : State) : (s.flagsStarted).draws = s.draws := rfl

/-! ### The flags at a completion (R27) -/

@[simp] theorem State.flagsFinished_srcAddr (s : State) (e : ErrCode) : (s.flagsFinished e).srcAddr = s.srcAddr := rfl
@[simp] theorem State.flagsFinished_srcLen (s : State) (e : ErrCode) : (s.flagsFinished e).srcLen = s.srcLen := rfl
@[simp] theorem State.flagsFinished_result (s : State) (e : ErrCode) : (s.flagsFinished e).result = s.result := rfl
@[simp] theorem State.flagsFinished_busy (s : State) (e : ErrCode) : (s.flagsFinished e).busy = false := rfl
@[simp] theorem State.flagsFinished_done (s : State) (e : ErrCode) : (s.flagsFinished e).done = true := rfl
@[simp] theorem State.flagsFinished_err (s : State) (e : ErrCode) : (s.flagsFinished e).err = e := rfl
@[simp] theorem State.flagsFinished_mode (s : State) (e : ErrCode) : (s.flagsFinished e).mode = s.mode := rfl
@[simp] theorem State.flagsFinished_width (s : State) (e : ErrCode) : (s.flagsFinished e).width = s.width := rfl
@[simp] theorem State.flagsFinished_base (s : State) (e : ErrCode) : (s.flagsFinished e).base = s.base := rfl
@[simp] theorem State.flagsFinished_len (s : State) (e : ErrCode) : (s.flagsFinished e).len = s.len := rfl
@[simp] theorem State.flagsFinished_idx (s : State) (e : ErrCode) : (s.flagsFinished e).idx = s.idx := rfl
@[simp] theorem State.flagsFinished_acc (s : State) (e : ErrCode) : (s.flagsFinished e).acc = s.acc := rfl
@[simp] theorem State.flagsFinished_consumed (s : State) (e : ErrCode) : (s.flagsFinished e).consumed = s.consumed := rfl
@[simp] theorem State.flagsFinished_mem (s : State) (e : ErrCode) : (s.flagsFinished e).mem = s.mem := rfl
@[simp] theorem State.flagsFinished_params (s : State) (e : ErrCode) : (s.flagsFinished e).params = s.params := rfl
@[simp] theorem State.flagsFinished_host (s : State) (e : ErrCode) : (s.flagsFinished e).host = s.host := rfl
@[simp] theorem State.flagsFinished_turns (s : State) (e : ErrCode) : (s.flagsFinished e).turns = s.turns := rfl
@[simp] theorem State.flagsFinished_reads (s : State) (e : ErrCode) : (s.flagsFinished e).reads = s.reads := rfl
@[simp] theorem State.flagsFinished_draws (s : State) (e : ErrCode) : (s.flagsFinished e).draws = s.draws := rfl

/-! ### `finish` (R27) -/

@[simp] theorem State.finish_srcAddr (s : State) (e : ErrCode) (v : Word) : (s.finish e v).srcAddr = s.srcAddr := rfl
@[simp] theorem State.finish_srcLen (s : State) (e : ErrCode) (v : Word) : (s.finish e v).srcLen = s.srcLen := rfl
@[simp] theorem State.finish_result (s : State) (e : ErrCode) (v : Word) : (s.finish e v).result = v := rfl
@[simp] theorem State.finish_busy (s : State) (e : ErrCode) (v : Word) : (s.finish e v).busy = false := rfl
@[simp] theorem State.finish_done (s : State) (e : ErrCode) (v : Word) : (s.finish e v).done = true := rfl
@[simp] theorem State.finish_err (s : State) (e : ErrCode) (v : Word) : (s.finish e v).err = e := rfl
@[simp] theorem State.finish_mode (s : State) (e : ErrCode) (v : Word) : (s.finish e v).mode = s.mode := rfl
@[simp] theorem State.finish_width (s : State) (e : ErrCode) (v : Word) : (s.finish e v).width = s.width := rfl
@[simp] theorem State.finish_base (s : State) (e : ErrCode) (v : Word) : (s.finish e v).base = s.base := rfl
@[simp] theorem State.finish_len (s : State) (e : ErrCode) (v : Word) : (s.finish e v).len = s.len := rfl
@[simp] theorem State.finish_idx (s : State) (e : ErrCode) (v : Word) : (s.finish e v).idx = s.idx := rfl
@[simp] theorem State.finish_acc (s : State) (e : ErrCode) (v : Word) : (s.finish e v).acc = s.acc := rfl
@[simp] theorem State.finish_consumed (s : State) (e : ErrCode) (v : Word) : (s.finish e v).consumed = s.consumed := rfl
@[simp] theorem State.finish_mem (s : State) (e : ErrCode) (v : Word) : (s.finish e v).mem = s.mem := rfl
@[simp] theorem State.finish_params (s : State) (e : ErrCode) (v : Word) : (s.finish e v).params = s.params := rfl
@[simp] theorem State.finish_host (s : State) (e : ErrCode) (v : Word) : (s.finish e v).host = s.host := rfl
@[simp] theorem State.finish_turns (s : State) (e : ErrCode) (v : Word) : (s.finish e v).turns = s.turns := rfl
@[simp] theorem State.finish_reads (s : State) (e : ErrCode) (v : Word) : (s.finish e v).reads = s.reads := rfl
@[simp] theorem State.finish_draws (s : State) (e : ErrCode) (v : Word) : (s.finish e v).draws = s.draws := rfl

/-! ### The start of PARSE_FAST (R26) -/

@[simp] theorem State.startFast_srcAddr (s : State) : (s.startFast).srcAddr = s.srcAddr := rfl
@[simp] theorem State.startFast_srcLen (s : State) : (s.startFast).srcLen = s.srcLen := rfl
@[simp] theorem State.startFast_result (s : State) : (s.startFast).result = s.result := rfl
@[simp] theorem State.startFast_busy (s : State) : (s.startFast).busy = true := rfl
@[simp] theorem State.startFast_done (s : State) : (s.startFast).done = false := rfl
@[simp] theorem State.startFast_err (s : State) : (s.startFast).err = .none := rfl
@[simp] theorem State.startFast_mode (s : State) : (s.startFast).mode = .fast := rfl
@[simp] theorem State.startFast_width (s : State) : (s.startFast).width = s.width := rfl
@[simp] theorem State.startFast_base (s : State) : (s.startFast).base = s.srcAddr := rfl
@[simp] theorem State.startFast_len (s : State) : (s.startFast).len = s.srcLen := rfl
@[simp] theorem State.startFast_idx (s : State) : (s.startFast).idx = 0 := rfl
@[simp] theorem State.startFast_acc (s : State) : (s.startFast).acc = 0 := rfl
@[simp] theorem State.startFast_consumed (s : State) : (s.startFast).consumed = [] := rfl
@[simp] theorem State.startFast_mem (s : State) : (s.startFast).mem = s.mem := rfl
@[simp] theorem State.startFast_params (s : State) : (s.startFast).params = s.params := rfl
@[simp] theorem State.startFast_host (s : State) : (s.startFast).host = s.host := rfl
@[simp] theorem State.startFast_turns (s : State) : (s.startFast).turns = s.turns := rfl
@[simp] theorem State.startFast_reads (s : State) : (s.startFast).reads = s.reads := rfl
@[simp] theorem State.startFast_draws (s : State) : (s.startFast).draws = s.draws := rfl

/-! ### The start of a checked command (R26) -/

@[simp] theorem State.startChecked_srcAddr (s : State) (w : Width) : (s.startChecked w).srcAddr = s.srcAddr := rfl
@[simp] theorem State.startChecked_srcLen (s : State) (w : Width) : (s.startChecked w).srcLen = s.srcLen := rfl
@[simp] theorem State.startChecked_result (s : State) (w : Width) : (s.startChecked w).result = s.result := rfl
@[simp] theorem State.startChecked_busy (s : State) (w : Width) : (s.startChecked w).busy = true := rfl
@[simp] theorem State.startChecked_done (s : State) (w : Width) : (s.startChecked w).done = false := rfl
@[simp] theorem State.startChecked_err (s : State) (w : Width) : (s.startChecked w).err = .none := rfl
@[simp] theorem State.startChecked_mode (s : State) (w : Width) : (s.startChecked w).mode = .checked := rfl
@[simp] theorem State.startChecked_width (s : State) (w : Width) : (s.startChecked w).width = w := rfl
@[simp] theorem State.startChecked_base (s : State) (w : Width) : (s.startChecked w).base = s.srcAddr := rfl
@[simp] theorem State.startChecked_len (s : State) (w : Width) : (s.startChecked w).len = s.srcLen := rfl
@[simp] theorem State.startChecked_idx (s : State) (w : Width) : (s.startChecked w).idx = 0 := rfl
@[simp] theorem State.startChecked_acc (s : State) (w : Width) : (s.startChecked w).acc = 0 := rfl
@[simp] theorem State.startChecked_consumed (s : State) (w : Width) : (s.startChecked w).consumed = [] := rfl
@[simp] theorem State.startChecked_mem (s : State) (w : Width) : (s.startChecked w).mem = s.mem := rfl
@[simp] theorem State.startChecked_params (s : State) (w : Width) : (s.startChecked w).params = s.params := rfl
@[simp] theorem State.startChecked_host (s : State) (w : Width) : (s.startChecked w).host = s.host := rfl
@[simp] theorem State.startChecked_turns (s : State) (w : Width) : (s.startChecked w).turns = s.turns := rfl
@[simp] theorem State.startChecked_reads (s : State) (w : Width) : (s.startChecked w).reads = s.reads := rfl
@[simp] theorem State.startChecked_draws (s : State) (w : Width) : (s.startChecked w).draws = s.draws := rfl

/-! ### The advance of a running command (R69, R91) -/

@[simp] theorem State.advance_srcAddr (s : State) (acc idx : Word) (bs : List Byte) : (s.advance acc idx bs).srcAddr = s.srcAddr := rfl
@[simp] theorem State.advance_srcLen (s : State) (acc idx : Word) (bs : List Byte) : (s.advance acc idx bs).srcLen = s.srcLen := rfl
@[simp] theorem State.advance_result (s : State) (acc idx : Word) (bs : List Byte) : (s.advance acc idx bs).result = s.result := rfl
@[simp] theorem State.advance_busy (s : State) (acc idx : Word) (bs : List Byte) : (s.advance acc idx bs).busy = s.busy := rfl
@[simp] theorem State.advance_done (s : State) (acc idx : Word) (bs : List Byte) : (s.advance acc idx bs).done = s.done := rfl
@[simp] theorem State.advance_err (s : State) (acc idx : Word) (bs : List Byte) : (s.advance acc idx bs).err = s.err := rfl
@[simp] theorem State.advance_mode (s : State) (acc idx : Word) (bs : List Byte) : (s.advance acc idx bs).mode = s.mode := rfl
@[simp] theorem State.advance_width (s : State) (acc idx : Word) (bs : List Byte) : (s.advance acc idx bs).width = s.width := rfl
@[simp] theorem State.advance_base (s : State) (acc idx : Word) (bs : List Byte) : (s.advance acc idx bs).base = s.base := rfl
@[simp] theorem State.advance_len (s : State) (acc idx : Word) (bs : List Byte) : (s.advance acc idx bs).len = s.len := rfl
@[simp] theorem State.advance_idx (s : State) (acc idx : Word) (bs : List Byte) : (s.advance acc idx bs).idx = idx := rfl
@[simp] theorem State.advance_acc (s : State) (acc idx : Word) (bs : List Byte) : (s.advance acc idx bs).acc = acc := rfl
@[simp] theorem State.advance_consumed (s : State) (acc idx : Word) (bs : List Byte) : (s.advance acc idx bs).consumed = s.consumed ++ bs := rfl
@[simp] theorem State.advance_mem (s : State) (acc idx : Word) (bs : List Byte) : (s.advance acc idx bs).mem = s.mem := rfl
@[simp] theorem State.advance_params (s : State) (acc idx : Word) (bs : List Byte) : (s.advance acc idx bs).params = s.params := rfl
@[simp] theorem State.advance_host (s : State) (acc idx : Word) (bs : List Byte) : (s.advance acc idx bs).host = s.host := rfl
@[simp] theorem State.advance_turns (s : State) (acc idx : Word) (bs : List Byte) : (s.advance acc idx bs).turns = s.turns := rfl
@[simp] theorem State.advance_reads (s : State) (acc idx : Word) (bs : List Byte) : (s.advance acc idx bs).reads = s.reads := rfl
@[simp] theorem State.advance_draws (s : State) (acc idx : Word) (bs : List Byte) : (s.advance acc idx bs).draws = s.draws := rfl

/-! ### The reset event (R114) -/

@[simp] theorem State.resetEvent_srcAddr (s : State) : (s.resetEvent).srcAddr = 0 := rfl
@[simp] theorem State.resetEvent_srcLen (s : State) : (s.resetEvent).srcLen = 0 := rfl
@[simp] theorem State.resetEvent_result (s : State) : (s.resetEvent).result = 0 := rfl
@[simp] theorem State.resetEvent_busy (s : State) : (s.resetEvent).busy = false := rfl
@[simp] theorem State.resetEvent_done (s : State) : (s.resetEvent).done = false := rfl
@[simp] theorem State.resetEvent_err (s : State) : (s.resetEvent).err = .none := rfl
@[simp] theorem State.resetEvent_mode (s : State) : (s.resetEvent).mode = .fast := rfl
@[simp] theorem State.resetEvent_width (s : State) : (s.resetEvent).width = .w8 := rfl
@[simp] theorem State.resetEvent_base (s : State) : (s.resetEvent).base = 0 := rfl
@[simp] theorem State.resetEvent_len (s : State) : (s.resetEvent).len = 0 := rfl
@[simp] theorem State.resetEvent_idx (s : State) : (s.resetEvent).idx = 0 := rfl
@[simp] theorem State.resetEvent_acc (s : State) : (s.resetEvent).acc = 0 := rfl
@[simp] theorem State.resetEvent_consumed (s : State) : (s.resetEvent).consumed = [] := rfl
@[simp] theorem State.resetEvent_mem (s : State) : (s.resetEvent).mem = s.mem := rfl
@[simp] theorem State.resetEvent_params (s : State) : (s.resetEvent).params = s.params := rfl
@[simp] theorem State.resetEvent_host (s : State) : (s.resetEvent).host = s.host := rfl
@[simp] theorem State.resetEvent_turns (s : State) : (s.resetEvent).turns = s.turns := rfl
@[simp] theorem State.resetEvent_reads (s : State) : (s.resetEvent).reads = s.reads := rfl
@[simp] theorem State.resetEvent_draws (s : State) : (s.resetEvent).draws = s.draws := rfl

/-! ### A value returned to the Host -/

@[simp] theorem State.returned_srcAddr (s : State) (v : Word) : (s.returned v).srcAddr = s.srcAddr := rfl
@[simp] theorem State.returned_srcLen (s : State) (v : Word) : (s.returned v).srcLen = s.srcLen := rfl
@[simp] theorem State.returned_result (s : State) (v : Word) : (s.returned v).result = s.result := rfl
@[simp] theorem State.returned_busy (s : State) (v : Word) : (s.returned v).busy = s.busy := rfl
@[simp] theorem State.returned_done (s : State) (v : Word) : (s.returned v).done = s.done := rfl
@[simp] theorem State.returned_err (s : State) (v : Word) : (s.returned v).err = s.err := rfl
@[simp] theorem State.returned_mode (s : State) (v : Word) : (s.returned v).mode = s.mode := rfl
@[simp] theorem State.returned_width (s : State) (v : Word) : (s.returned v).width = s.width := rfl
@[simp] theorem State.returned_base (s : State) (v : Word) : (s.returned v).base = s.base := rfl
@[simp] theorem State.returned_len (s : State) (v : Word) : (s.returned v).len = s.len := rfl
@[simp] theorem State.returned_idx (s : State) (v : Word) : (s.returned v).idx = s.idx := rfl
@[simp] theorem State.returned_acc (s : State) (v : Word) : (s.returned v).acc = s.acc := rfl
@[simp] theorem State.returned_consumed (s : State) (v : Word) : (s.returned v).consumed = s.consumed := rfl
@[simp] theorem State.returned_mem (s : State) (v : Word) : (s.returned v).mem = s.mem := rfl
@[simp] theorem State.returned_params (s : State) (v : Word) : (s.returned v).params = s.params := rfl
@[simp] theorem State.returned_host (s : State) (v : Word) : (s.returned v).host = s.host := rfl
@[simp] theorem State.returned_turns (s : State) (v : Word) : (s.returned v).turns = s.turns := rfl
@[simp] theorem State.returned_reads (s : State) (v : Word) : (s.returned v).reads = v :: s.reads := rfl
@[simp] theorem State.returned_draws (s : State) (v : Word) : (s.returned v).draws = s.draws := rfl

end Sys2Proof.Machine
end

