-- ==== Sys2Proof/Laws/Exec.lean ====
section
/-! SUPPORT. What a command's step can do, said once: the shape of each meaning, the cases of each micro-step, and the
cases of `exec`. -/

namespace Sys2Proof.Machine

/-! ### Shapes -/

theorem exec_parseFast (s : State) :
    exec .parseFast s = commandStep .parseFast State.startFast fastMicroStep s := rfl

theorem exec_checkedInstr (w : Width) (s : State) :
    exec (checkedInstr w) s =
      commandStep (checkedInstr w) (fun s => s.startChecked w) (checkedMicroStep w) s := by cases w <;> rfl

/-- Every command is PARSE_FAST or the checked command of a width. -/
theorem instr_cases (i : Instr) : i = .parseFast ∨ ∃ w, i = checkedInstr w := by
  cases i
  · exact .inl rfl
  · exact .inr ⟨.w8, rfl⟩
  · exact .inr ⟨.w16, rfl⟩
  · exact .inr ⟨.w32, rfl⟩
  · exact .inr ⟨.w64, rfl⟩

theorem checkedInstr_ne_fast (w : Width) : checkedInstr w ≠ .parseFast := by cases w <;> decide

theorem checkedInstr_injective {w v : Width} (h : checkedInstr w = checkedInstr v) : w = v := by
  cases w <;> cases v <;> first | rfl | exact absurd h (by decide)

theorem State.running_fast {s : State} (h : s.mode = .fast) : s.running = .parseFast := by
  simp [State.running, h]

theorem State.running_checked {s : State} (h : s.mode = .checked) : s.running = checkedInstr s.width := by
  cases hw : s.width <;> simp [State.running, h, hw, checkedInstr]

theorem State.running_eq_fast {s : State} : s.running = .parseFast ↔ s.mode = .fast := by
  cases hm : s.mode
  · simp [State.running_fast hm]
  · simp [State.running_checked hm, checkedInstr_ne_fast]

theorem State.running_eq_checked {s : State} {w : Width} :
    s.running = checkedInstr w ↔ s.mode = .checked ∧ s.width = w := by
  cases hm : s.mode
  · simp [State.running_fast hm, Ne.symm (checkedInstr_ne_fast w)]
  · simp only [State.running_checked hm, true_and]
    exact ⟨checkedInstr_injective, fun h => by rw [h]⟩

theorem commandStep_idle {i : Instr} {f : State → State} {m : State → Host.Outcome State Fault Refusal} {s : State}
    (h : s.busy = false) : commandStep i f m s = .next (f s) := by simp [commandStep, h]

theorem commandStep_running {i : Instr} {f : State → State} {m : State → Host.Outcome State Fault Refusal} {s : State}
    (h : s.busy = true) (hr : s.running = i) : commandStep i f m s = m s := by simp [commandStep, h, hr]

theorem commandStep_other {i : Instr} {f : State → State} {m : State → Host.Outcome State Fault Refusal} {s : State}
    (h : s.busy = true) (hr : s.running ≠ i) : commandStep i f m s = .next s := by simp [commandStep, h, hr]

theorem engineTurn_idle {s : State} (h : s.busy = false) : engineTurn s = .next s := by simp [engineTurn, h]

theorem engineTurn_fast {s : State} (h : s.busy = true) (hm : s.mode = .fast) : engineTurn s = fastMicroStep s := by
  simp only [engineTurn, h, if_true, State.running_fast hm, exec_parseFast]
  exact commandStep_running h (State.running_fast hm)

theorem engineTurn_checked {s : State} (h : s.busy = true) (hm : s.mode = .checked) :
    engineTurn s = checkedMicroStep s.width s := by
  simp only [engineTurn, h, if_true, State.running_checked hm, exec_checkedInstr]
  exact commandStep_running h (State.running_checked hm)

/-! ### Micro-steps -/

theorem checkedMicroStep_finish {w : Width} {s : State} (h : s.idx = s.len) :
    checkedMicroStep w s = .next (s.finish .none s.acc) := by simp [checkedMicroStep, h]

theorem checkedMicroStep_unreadable {w : Width} {s : State} (h : s.idx ≠ s.len)
    (hk : s.kindAt (s.inputAddr s.idx) = .unreadable) :
    checkedMicroStep w s = .next (s.finish .busError 0) := by
  simp [checkedMicroStep, h, State.memRead_unreadable hk]

theorem checkedMicroStep_device {w : Width} {s : State} (h : s.idx ≠ s.len)
    (hk : s.kindAt (s.inputAddr s.idx) = .device) :
    checkedMicroStep w s = .refused (.deviceRead (s.inputAddr s.idx)) := by
  simp [checkedMicroStep, h, State.memRead_device hk]

theorem checkedMicroStep_error {w : Width} {s : State} {e : ErrCode} (h : s.idx ≠ s.len)
    (hk : s.kindAt (s.inputAddr s.idx) = .ordinary)
    (he : checkedStep w s.acc (s.mem.read (s.inputAddr s.idx)) = .error e) :
    checkedMicroStep w s = .next (s.finish e 0) := by
  simp [checkedMicroStep, h, State.memRead_ordinary hk, he]

theorem checkedMicroStep_ok {w : Width} {s : State} {acc : Word} (h : s.idx ≠ s.len)
    (hk : s.kindAt (s.inputAddr s.idx) = .ordinary)
    (he : checkedStep w s.acc (s.mem.read (s.inputAddr s.idx)) = .ok acc) :
    checkedMicroStep w s = .next (s.advance acc (s.idx + 1) [s.mem.read (s.inputAddr s.idx)]) := by
  simp [checkedMicroStep, h, State.memRead_ordinary hk, he]

/-- Everything a checked micro-step can do. -/
theorem checkedMicroStep_cases (w : Width) (s : State) :
    (s.idx = s.len ∧ checkedMicroStep w s = .next (s.finish .none s.acc)) ∨
    (s.idx ≠ s.len ∧ s.kindAt (s.inputAddr s.idx) = .unreadable ∧
      checkedMicroStep w s = .next (s.finish .busError 0)) ∨
    (s.idx ≠ s.len ∧ s.kindAt (s.inputAddr s.idx) = .device ∧
      checkedMicroStep w s = .refused (.deviceRead (s.inputAddr s.idx))) ∨
    (s.idx ≠ s.len ∧ s.kindAt (s.inputAddr s.idx) = .ordinary ∧
      ∃ e, checkedStep w s.acc (s.mem.read (s.inputAddr s.idx)) = .error e ∧
        checkedMicroStep w s = .next (s.finish e 0)) ∨
    (s.idx ≠ s.len ∧ s.kindAt (s.inputAddr s.idx) = .ordinary ∧
      ∃ acc, checkedStep w s.acc (s.mem.read (s.inputAddr s.idx)) = .ok acc ∧
        checkedMicroStep w s = .next (s.advance acc (s.idx + 1) [s.mem.read (s.inputAddr s.idx)])) := by
  by_cases h : s.idx = s.len
  · exact .inl ⟨h, checkedMicroStep_finish h⟩
  · cases hk : s.kindAt (s.inputAddr s.idx) with
    | unreadable => exact .inr (.inl ⟨h, rfl, checkedMicroStep_unreadable h hk⟩)
    | device => exact .inr (.inr (.inl ⟨h, rfl, checkedMicroStep_device h hk⟩))
    | ordinary =>
      cases he : checkedStep w s.acc (s.mem.read (s.inputAddr s.idx)) with
      | error e => exact .inr (.inr (.inr (.inl ⟨h, rfl, e, rfl, checkedMicroStep_error h hk he⟩)))
      | ok acc => exact .inr (.inr (.inr (.inr ⟨h, rfl, acc, rfl, checkedMicroStep_ok h hk he⟩)))

/-- The two errors of the checked digit step, and its result (R67). -/
theorem checkedStep_cases (w : Width) (acc : Word) (b : Byte) :
    (isDigit b = false ∧ checkedStep w acc b = .error .invalidCharacter) ∨
    (isDigit b = true ∧ accepts w acc.toNat (digitValue b) = false ∧ checkedStep w acc b = .error .overflow) ∨
    (isDigit b = true ∧ accepts w acc.toNat (digitValue b) = true ∧
      checkedStep w acc b = .ok (BitVec.ofNat 64 (acc.toNat * 10 + digitValue b))) := by
  cases hd : isDigit b
  · exact .inl ⟨rfl, by simp [checkedStep, hd]⟩
  · cases ha : accepts w acc.toNat (digitValue b)
    · exact .inr (.inl ⟨rfl, rfl, by simp [checkedStep, hd, ha]⟩)
    · exact .inr (.inr ⟨rfl, rfl, by simp [checkedStep, hd, ha]⟩)

/-- `CheckedDigitOf` at an accepted digit. -/
theorem checkedDigitOf_ok {s t : State} {c : Byte} {acc : Word} (h : checkedStep s.width s.acc c = .ok acc) :
    CheckedDigitOf s t c ↔
      t.busy = true ∧ t.acc = acc ∧ t.idx = s.idx + 1 ∧ t.consumed = s.consumed ++ [c] := by simp [CheckedDigitOf, h]

/-- `CheckedDigitOf` at a byte that ends the command. -/
theorem checkedDigitOf_error {s t : State} {c : Byte} {e : ErrCode} (h : checkedStep s.width s.acc c = .error e) :
    CheckedDigitOf s t c ↔
      t.busy = false ∧ t.done = true ∧ t.err = e ∧ t.result = 0 ∧ t.acc = s.acc ∧ t.idx = s.idx := by
  simp [CheckedDigitOf, h]

/-- Everything the CHUNK micro-step can do. -/
theorem fastChunk_cases (s : State) :
    ((∀ k, k < 8 → s.kindAt (addrAt s.base k) = .ordinary) ∧ fastChunk s =
      .next (s.advance (swarCollapse (leWord (bytesFrom s.mem s.base 8))) 8 (bytesFrom s.mem s.base 8))) ∨
    ((∃ k, k < 8 ∧ s.kindAt (addrAt s.base k) = .unreadable) ∧
      (∀ k, k < 8 → s.kindAt (addrAt s.base k) ≠ .device) ∧ fastChunk s = .next (s.finish .busError 0)) ∨
    (∃ k, k < 8 ∧ s.kindAt (addrAt s.base k) = .device ∧ fastChunk s = .refused (.deviceRead (addrAt s.base k))) := by
  rcases State.readBytes_cases s 8 s.base with ⟨h, hr⟩ | ⟨h, hd, hr⟩ | ⟨k, hk, hd, hr⟩
  · exact .inl ⟨h, by simp only [fastChunk, State.readChunk, hr]⟩
  · exact .inr (.inl ⟨h, hd, by simp only [fastChunk, State.readChunk, hr]⟩)
  · exact .inr (.inr ⟨k, hk, hd, by simp only [fastChunk, State.readChunk, hr]⟩)

/-- Everything the fast DIGIT micro-step can do. -/
theorem fastDigit_cases (s : State) :
    (s.kindAt (s.inputAddr s.idx) = .ordinary ∧ fastDigit s = .next (s.advance
      (fastStep s.acc (s.mem.read (s.inputAddr s.idx))) (s.idx + 1) [s.mem.read (s.inputAddr s.idx)])) ∨
    (s.kindAt (s.inputAddr s.idx) = .unreadable ∧ fastDigit s = .next (s.finish .busError 0)) ∨
    (s.kindAt (s.inputAddr s.idx) = .device ∧ fastDigit s = .refused (.deviceRead (s.inputAddr s.idx))) := by
  cases hk : s.kindAt (s.inputAddr s.idx)
  · exact .inl ⟨rfl, by simp [fastDigit, State.memRead_ordinary hk]⟩
  · exact .inr (.inl ⟨rfl, by simp [fastDigit, State.memRead_unreadable hk]⟩)
  · exact .inr (.inr ⟨rfl, by simp [fastDigit, State.memRead_device hk]⟩)

/-- The two forms of the fast FINISH micro-step (R90). -/
theorem fastFinish_cases (s : State) :
    (¬ (contractOk s.consumed = false ∧ s.params.fastContractOnly = true) ∧
      fastFinish s = s.finish .none (narrow32 s.acc)) ∨
    ((contractOk s.consumed = false ∧ s.params.fastContractOnly = true) ∧
      fastFinish s = { s.finish .none (zext64 (Config.draw32 s.draws)) with draws := s.draws + 1 }) := by
  unfold fastFinish
  cases hc : contractOk s.consumed <;> cases hp : s.params.fastContractOnly <;> simp

theorem fastMicroStep_chunk {s : State} (h : s.idx = 0) (hl : 8 ≤ s.len.toNat) : fastMicroStep s = fastChunk s := by
  simp [fastMicroStep, h, hl]

theorem fastMicroStep_digit {s : State} (h : ¬ (s.idx = 0 ∧ 8 ≤ s.len.toNat)) (hl : s.idx.toNat < s.len.toNat) :
    fastMicroStep s = fastDigit s := by
  simp only [fastMicroStep, h, hl, if_true, if_false]

theorem fastMicroStep_finish {s : State} (h : s.len.toNat ≤ s.idx.toNat) :
    fastMicroStep s = .next (fastFinish s) := by
  have h1 : ¬ (s.idx = 0 ∧ 8 ≤ s.len.toNat) := by
    rintro ⟨h0, h8⟩
    simp [h0] at h
    omega
  simp only [fastMicroStep, h1, Nat.not_lt.mpr h, if_false]

/-- A fast micro-step is one of the three. -/
theorem fastMicroStep_cases (s : State) :
    (s.idx = 0 ∧ 8 ≤ s.len.toNat ∧ fastMicroStep s = fastChunk s) ∨
    (¬ (s.idx = 0 ∧ 8 ≤ s.len.toNat) ∧ s.idx.toNat < s.len.toNat ∧ fastMicroStep s = fastDigit s) ∨
    (s.len.toNat ≤ s.idx.toNat ∧ fastMicroStep s = .next (fastFinish s)) := by
  by_cases h : s.idx = 0 ∧ 8 ≤ s.len.toNat
  · exact .inl ⟨h.1, h.2, fastMicroStep_chunk h.1 h.2⟩
  · by_cases hl : s.idx.toNat < s.len.toNat
    · exact .inr (.inl ⟨h, hl, fastMicroStep_digit h hl⟩)
    · exact .inr (.inr ⟨Nat.not_lt.mp hl, fastMicroStep_finish (Nat.not_lt.mp hl)⟩)

/-! ### A micro-step that answers a next state -/

/-- What every micro-step that answers a next state has done: it ended the command, with or without a draw, or it wrote
ACC, IDX and the bytes consumed. -/
theorem fastMicroStep_next {s t : State} (h : fastMicroStep s = .next t) :
    (∃ e v, t = s.finish e v ∧ (e = .none ∨ (e = .busError ∧ v = 0))) ∨
    (∃ v, t = { s.finish .none v with draws := s.draws + 1 }) ∨
    (∃ acc idx bs, t = s.advance acc idx bs) := by
  rcases fastMicroStep_cases s with ⟨-, -, hm⟩ | ⟨-, -, hm⟩ | ⟨-, hm⟩ <;> rw [hm] at h
  · rcases fastChunk_cases s with ⟨-, hc⟩ | ⟨-, -, hc⟩ | ⟨k, -, -, hc⟩ <;> rw [hc] at h <;> cases h
    · exact .inr (.inr ⟨_, _, _, rfl⟩)
    · exact .inl ⟨.busError, 0, rfl, .inr ⟨rfl, rfl⟩⟩
  · rcases fastDigit_cases s with ⟨-, hc⟩ | ⟨-, hc⟩ | ⟨-, hc⟩ <;> rw [hc] at h <;> cases h
    · exact .inr (.inr ⟨_, _, _, rfl⟩)
    · exact .inl ⟨.busError, 0, rfl, .inr ⟨rfl, rfl⟩⟩
  · cases h
    rcases fastFinish_cases s with ⟨-, hf⟩ | ⟨-, hf⟩ <;> rw [hf]
    · exact .inl ⟨.none, _, rfl, .inl rfl⟩
    · exact .inr (.inl ⟨_, rfl⟩)

theorem checkedMicroStep_next {w : Width} {s t : State} (h : checkedMicroStep w s = .next t) :
    (∃ e v, t = s.finish e v ∧ ((e = .none ∧ v = s.acc) ∨ (e ≠ .none ∧ v = 0))) ∨
    (∃ acc idx bs, t = s.advance acc idx bs) := by
  rcases checkedMicroStep_cases w s with ⟨-, hm⟩ | ⟨-, -, hm⟩ | ⟨-, -, hm⟩ | ⟨-, -, e, he, hm⟩ | ⟨-, -, acc, -, hm⟩ <;>
    rw [hm] at h <;> cases h
  · exact .inl ⟨.none, s.acc, rfl, .inl ⟨rfl, rfl⟩⟩
  · exact .inl ⟨.busError, 0, rfl, .inr ⟨by simp, rfl⟩⟩
  · refine .inl ⟨e, 0, rfl, .inr ⟨?_, rfl⟩⟩
    rcases checkedStep_cases w s.acc (s.mem.read (s.inputAddr s.idx)) with ⟨-, hc⟩ | ⟨-, -, hc⟩ | ⟨-, -, hc⟩ <;>
      rw [hc] at he <;> cases he <;> simp
  · exact .inr ⟨_, _, _, rfl⟩

/-- Everything `exec` can answer with a next state: the issue of its command, no change while another command runs, or a
micro-step of the running command. -/
theorem exec_next {i : Instr} {s t : State} (h : exec i s = .next t) :
    (s.busy = false ∧ ((i = .parseFast ∧ t = s.startFast) ∨ ∃ w, i = checkedInstr w ∧ t = s.startChecked w)) ∨
    (s.busy = true ∧ s.running ≠ i ∧ t = s) ∨
    (s.busy = true ∧ s.mode = .fast ∧ i = .parseFast ∧ fastMicroStep s = .next t) ∨
    (s.busy = true ∧ s.mode = .checked ∧ i = checkedInstr s.width ∧ checkedMicroStep s.width s = .next t) := by
  cases hb : s.busy
  · rcases instr_cases i with rfl | ⟨w, rfl⟩
    · rw [exec_parseFast, commandStep_idle hb] at h; cases h
      exact .inl ⟨rfl, .inl ⟨rfl, rfl⟩⟩
    · rw [exec_checkedInstr, commandStep_idle hb] at h; cases h
      exact .inl ⟨rfl, .inr ⟨w, rfl, rfl⟩⟩
  · rcases instr_cases i with rfl | ⟨w, rfl⟩
    · by_cases hr : s.running = .parseFast
      · rw [exec_parseFast, commandStep_running hb hr] at h
        exact .inr (.inr (.inl ⟨rfl, State.running_eq_fast.mp hr, rfl, h⟩))
      · rw [exec_parseFast, commandStep_other hb hr] at h; cases h
        exact .inr (.inl ⟨rfl, hr, rfl⟩)
    · by_cases hr : s.running = checkedInstr w
      · rw [exec_checkedInstr, commandStep_running hb hr] at h
        obtain ⟨hm, rfl⟩ := State.running_eq_checked.mp hr
        exact .inr (.inr (.inr ⟨rfl, hm, rfl, h⟩))
      · rw [exec_checkedInstr, commandStep_other hb hr] at h; cases h
        exact .inr (.inl ⟨rfl, hr, rfl⟩)

end Sys2Proof.Machine
end

