-- ==== Sys2Proof/Laws/PerInstr.lean ====
section
/-! SUPPORT. Statements made of every command, one lemma per constructor of Instr. -/

/-- A command's CMD value sets no reserved bit and carries its OP and WSEL as the table of spec/30_encoding.md R54 gives
them. -/
def Sys2Proof.Laws.EncodedFields.Statement (i : Sys2Proof.Instr) : Prop :=
  Sys2Proof.Instr.wf i = true ∧ Sys2Proof.cmdReserved (Sys2Proof.encode i) = 0 ∧
    (Sys2Proof.cmdOp (Sys2Proof.encode i), Sys2Proof.cmdWsel (Sys2Proof.encode i)) =
      match i with
      | .parseFast      => (1, 0)
      | .parseChecked8  => (2, 0)
      | .parseChecked16 => (2, 1)
      | .parseChecked32 => (2, 2)
      | .parseChecked64 => (2, 3)

theorem Sys2Proof.Laws.EncodedFields.parseFast : Sys2Proof.Laws.EncodedFields.Statement .parseFast := by
  refine ⟨rfl, ?_, ?_⟩ <;> decide

theorem Sys2Proof.Laws.EncodedFields.parseChecked8 : Sys2Proof.Laws.EncodedFields.Statement .parseChecked8 := by
  refine ⟨rfl, ?_, ?_⟩ <;> decide

theorem Sys2Proof.Laws.EncodedFields.parseChecked16 : Sys2Proof.Laws.EncodedFields.Statement .parseChecked16 := by
  refine ⟨rfl, ?_, ?_⟩ <;> decide

theorem Sys2Proof.Laws.EncodedFields.parseChecked32 : Sys2Proof.Laws.EncodedFields.Statement .parseChecked32 := by
  refine ⟨rfl, ?_, ?_⟩ <;> decide

theorem Sys2Proof.Laws.EncodedFields.parseChecked64 : Sys2Proof.Laws.EncodedFields.Statement .parseChecked64 := by
  refine ⟨rfl, ?_, ?_⟩ <;> decide
end

