-- ==== Sys2Proof/Laws/Step.lean ====
section
/-! SUPPORT. What a step of the machine can do, said once: whose turn it is, and the cases of a Host step. -/

namespace Sys2Proof.Machine

/-! ### Whose turn -/

theorem step_turn {s : State} {t : Turn} {ts : List Turn} (h : s.turns = t :: ts) :
    step s = runTurn t { s with turns := ts } := by simp [step, nextTurn, h]

theorem step_noTurn_busy {s : State} (h : s.turns = []) (hb : s.busy = true) : step s = engineTurn s := by
  simp [step, nextTurn, h, hb, runTurn]

theorem step_noTurn_idle {s : State} (h : s.turns = []) (hb : s.busy = false) : step s = hostTurn s := by
  simp [step, nextTurn, h, hb, runTurn]

/-- Every step is one turn on the state with the rest of the schedule. -/
theorem step_eq_runTurn (s : State) : ∃ ts, (nextTurn s).2 = { s with turns := ts } ∧
    step s = runTurn (nextTurn s).1 { s with turns := ts } := by
  unfold step nextTurn
  cases h : s.turns with
  | nil => exact ⟨[], by simp [← h], by simp [← h]⟩
  | cons t ts => exact ⟨ts, rfl, rfl⟩

theorem hostTurn_cons {s : State} {op : HostOp} {ops : List HostOp} (h : s.host = op :: ops) :
    hostTurn s = hostStep op { s with host := ops } := by simp [hostTurn, h]

theorem hostTurn_nil {s : State} (h : s.host = []) : hostTurn s = .next s := by simp [hostTurn, h]

/-! ### Register writes -/

theorem writeReg_cmd_idle {s : State} (v : Word) (h : s.busy = false) : writeReg 0x00 v s = issueCommand v s := by
  simp [writeReg, regAt, h]

theorem writeReg_busy {s : State} (offset : Nat) (v : Word) (h : s.busy = true) : writeReg offset v s = .next s := by
  unfold writeReg
  cases regAt offset with
  | none => rfl
  | some r => cases r <;> simp [h]

/-- Everything a register write can answer: nothing changed, SRC_ADDR or SRC_LEN written, a command issued, or
BAD_COMMAND; the last four only with BUSY = 0. -/
theorem writeReg_cases (offset : Nat) (v : Word) (s : State) :
    writeReg offset v s = .next s ∨
    (s.busy = false ∧ offset = 0x08 ∧ writeReg offset v s = .next { s with srcAddr := v }) ∨
    (s.busy = false ∧ offset = 0x10 ∧ writeReg offset v s = .next { s with srcLen := v }) ∨
    (s.busy = false ∧ offset = 0x00 ∧ ∃ i, decode v = .ok i ∧ writeReg offset v s = exec i s) ∨
    (s.busy = false ∧ offset = 0x00 ∧ (∃ e, decode v = .error e) ∧
      writeReg offset v s = .next (s.finish .badCommand 0)) := by
  cases hb : s.busy
  · by_cases h0 : offset = 0x00
    · subst h0
      rw [writeReg_cmd_idle v hb]
      unfold issueCommand
      cases hd : decode v with
      | ok i => exact .inr (.inr (.inr (.inl ⟨rfl, rfl, i, rfl, rfl⟩)))
      | error e => exact .inr (.inr (.inr (.inr ⟨rfl, rfl, ⟨e, rfl⟩, rfl⟩)))
    · by_cases h8 : offset = 0x08
      · subst h8; exact .inr (.inl ⟨rfl, rfl, by simp [writeReg, regAt, hb]⟩)
      · by_cases h10 : offset = 0x10
        · subst h10; exact .inr (.inr (.inl ⟨rfl, rfl, by simp [writeReg, regAt, hb]⟩))
        · left
          unfold writeReg regAt
          simp only [h0, h8, h10, if_false]
          split_ifs <;> rfl
  · exact .inl (writeReg_busy offset v hb)

/-! ### Host steps -/

/-- The first poll of WAIT says whether BUSY is 1. -/
theorem statusWord_bit0 (s : State) : s.statusWord.getLsbD 0 = s.busy := by
  cases hb : s.busy <;> cases hd : s.done <;> cases he : s.err <;>
    simp [State.statusWord, hb, hd, he, ErrCode.code]

theorem waitPoll_busy {s : State} (h : s.busy = true) :
    waitPoll s = { s with reads := s.statusWord :: s.reads, host := .wait :: s.host } := by
  unfold waitPoll; rw [if_pos (by rw [statusWord_bit0, h])]; rfl

theorem waitPoll_idle {s : State} (h : s.busy = false) : waitPoll s = { s with reads := s.statusWord :: s.reads } := by
  unfold waitPoll; rw [if_neg (by rw [statusWord_bit0, h]; decide)]; rfl

/-- Everything a Host memory read can do. -/
theorem hostMemRead_cases (a : Addr) (s : State) :
    (s.kindAt a = .ordinary ∧ hostMemRead a s = .next (s.returned (zext64 (s.mem.read a)))) ∨
    (s.kindAt a = .unreadable ∧ hostMemRead a s =
      .next { s.returned (zext64 (Config.freeByte s.draws)) with draws := s.draws + 1 }) ∨
    (s.kindAt a = .device ∧ hostMemRead a s = .refused (.deviceRead a)) := by
  cases hk : s.kindAt a
  · exact .inl ⟨rfl, by simp [hostMemRead, State.memRead_ordinary hk]⟩
  · exact .inr (.inl ⟨rfl, by simp [hostMemRead, State.memRead_unreadable hk]⟩)
  · exact .inr (.inr ⟨rfl, by simp [hostMemRead, State.memRead_device hk]⟩)

/-- Everything a Host step that answers a next state can have done: nothing to the block; SRC_ADDR, SRC_LEN or memory
written; a value returned, with or without a draw, WAIT kept or gone; reset; a command issued; BAD_COMMAND. -/
theorem hostStep_next {op : HostOp} {s t : State} (h : hostStep op s = .next t) :
    t = s ∨
    (∃ v, op = .write 0x08 v ∧ s.busy = false ∧ t = { s with srcAddr := v }) ∨
    (∃ v, op = .write 0x10 v ∧ s.busy = false ∧ t = { s with srcLen := v }) ∨
    (∃ a b, op = .memWrite a b ∧ t = { s with mem := s.mem.write a b }) ∨
    (∃ v ops n, ((∃ o, op = .read o) ∨ (∃ a, op = .memRead a) ∨ op = .wait) ∧
      t = { s with reads := v :: s.reads, host := ops, draws := n }) ∨
    (op = .reset ∧ t = s.resetEvent) ∨
    (∃ v i, op = .write 0x00 v ∧ s.busy = false ∧ decode v = .ok i ∧ exec i s = .next t) ∨
    (∃ v e, op = .write 0x00 v ∧ s.busy = false ∧ decode v = .error e ∧ t = s.finish .badCommand 0) := by
  cases op with
  | write o v =>
    simp only [hostStep] at h
    rcases writeReg_cases o v s with hw | ⟨hb, rfl, hw⟩ | ⟨hb, rfl, hw⟩ | ⟨hb, rfl, i, hd, hw⟩ | ⟨hb, rfl, ⟨e, hd⟩, hw⟩ <;>
      rw [hw] at h
    · cases h; exact .inl rfl
    · cases h; exact .inr (.inl ⟨v, rfl, hb, rfl⟩)
    · cases h; exact .inr (.inr (.inl ⟨v, rfl, hb, rfl⟩))
    · exact .inr (.inr (.inr (.inr (.inr (.inr (.inl ⟨v, i, rfl, hb, hd, h⟩))))))
    · cases h; exact .inr (.inr (.inr (.inr (.inr (.inr (.inr ⟨v, e, rfl, hb, hd, rfl⟩))))))
  | read o =>
    cases h; exact .inr (.inr (.inr (.inr (.inl ⟨_, s.host, s.draws, .inl ⟨o, rfl⟩, rfl⟩))))
  | memWrite a b => cases h; exact .inr (.inr (.inr (.inl ⟨a, b, rfl, rfl⟩)))
  | memRead a =>
    simp only [hostStep] at h
    rcases hostMemRead_cases a s with ⟨-, hr⟩ | ⟨-, hr⟩ | ⟨-, hr⟩ <;> rw [hr] at h <;> cases h
    · exact .inr (.inr (.inr (.inr (.inl ⟨_, s.host, s.draws, .inr (.inl ⟨a, rfl⟩), rfl⟩))))
    · exact .inr (.inr (.inr (.inr (.inl ⟨_, s.host, s.draws + 1, .inr (.inl ⟨a, rfl⟩), rfl⟩))))
  | reset => cases h; exact .inr (.inr (.inr (.inr (.inr (.inl ⟨rfl, rfl⟩)))))
  | wait =>
    simp only [hostStep] at h
    rcases Bool.eq_false_or_eq_true s.busy with hb | hb
    swap
    · rw [waitPoll_idle hb] at h; cases h
      exact .inr (.inr (.inr (.inr (.inl ⟨_, s.host, s.draws, .inr (.inr rfl), rfl⟩))))
    · rw [waitPoll_busy hb] at h; cases h
      exact .inr (.inr (.inr (.inr (.inl ⟨_, .wait :: s.host, s.draws, .inr (.inr rfl), rfl⟩))))

/-- Everything a step that answers a next state can have done, on the state with the rest of the schedule: nothing, a
reset, an Engine micro-step, or a Host step. -/
theorem step_next {s t : State} (h : step s = .next t) :
    ∃ ts, t = { s with turns := ts } ∨
      ((nextTurn s).1 = .reset ∧ t = State.resetEvent { s with turns := ts }) ∨
      (s.busy = true ∧ engineTurn { s with turns := ts } = .next t) ∨
      ((nextTurn s).1 = .host ∧ ∃ op ops, s.host = op :: ops ∧
        hostStep op { s with host := ops, turns := ts } = .next t) := by
  obtain ⟨ts, -, hs⟩ := step_eq_runTurn s
  refine ⟨ts, ?_⟩
  rw [hs] at h
  rcases ht : (nextTurn s).1 <;> rw [ht] at h
  · simp only [runTurn] at h
    rcases hh : s.host with _ | ⟨op, ops⟩
    · rw [hostTurn_nil (s := { s with turns := ts }) hh] at h
      injection h with h; exact .inl (by rw [← h, ← hh])
    · rw [hostTurn_cons (s := { s with turns := ts }) hh] at h
      exact .inr (.inr (.inr ⟨rfl, op, ops, rfl, h⟩))
  · simp only [runTurn] at h
    rcases Bool.eq_false_or_eq_true s.busy with hb | hb
    · exact .inr (.inr (.inl ⟨hb, h⟩))
    · rw [engineTurn_idle (s := { s with turns := ts }) hb] at h; cases h; exact .inl rfl
  · cases h; exact .inr (.inl ⟨rfl, rfl⟩)

/-! ### Runs -/

@[simp] theorem run_zero (s : State) : run 0 s = .next s := rfl

theorem run_succ {s t : State} (n : Nat) (h : step s = .next t) : run (n + 1) s = run n t := by simp [run, h]

/-- A run in two parts. -/
theorem run_add {m : Nat} : ∀ {k : Nat} {s t : State}, run k s = .next t → run (k + m) s = run m t
  | 0, s, t, h => by cases h; rw [Nat.zero_add]
  | k + 1, s, t, h => by
    rw [Nat.add_right_comm]
    simp only [run] at h ⊢
    cases hs : step s with
    | next u => rw [hs] at h; exact run_add (k := k) h
    | fault f => cases f
    | refused r => rw [hs] at h; cases h

/-- One more step at the end of a run. -/
theorem run_snoc {k : Nat} {s t u : State} (h : run k s = .next t) (hs : step t = .next u) : run (k + 1) s = .next u := by
  rw [run_add h, run_succ 0 hs, run_zero]

/-- `run` is the run of the host's interface. -/
theorem run_eq_core_run : ∀ (n : Nat) (s : State), run n s = Host.Core.run Sys2Proof.core n s
  | 0, _ => rfl
  | n + 1, s => by
    simp only [run, Host.Core.run, Sys2Proof.core]
    cases step s with
    | next t => exact run_eq_core_run n t
    | fault f => rfl
    | refused r => rfl

/-- An invariant that every step keeps holds after every run. -/
theorem run_keeps {P : State → Prop} (hP : ∀ s t, P s → step s = .next t → P t) :
    ∀ (n : Nat) {s t : State}, P s → run n s = .next t → P t
  | 0, s, t, hs, h => by cases h; exact hs
  | n + 1, s, t, hs, h => by
    simp only [run] at h
    cases hst : step s with
    | next u => rw [hst] at h; exact run_keeps hP n (hP s u hs hst) h
    | fault f => cases f
    | refused r => rw [hst] at h; cases h

end Sys2Proof.Machine
end

