-- ==== Sys2Proof/Tests/Slice0.lean ====
section
/-! SUPPORT. The model's own tests (expected values from spec/95_test_vectors.md, spec/30_encoding.md and
spec/10_state.md, each named where it is used), and for every obligation with hypotheses a witness that meets them. -/

namespace Sys2Proof.Tests

open Sys2Proof Sys2Proof.Machine

/-! ### Small states -/

/-- A field of the next state. -/
def after {α : Type} (f : State → α) : Host.Outcome State Fault Refusal → Option α
  | .next s    => some (f s)
  | .fault _   => none
  | .refused _ => none

/-- A memory that holds the bytes from an address on. -/
def memOf (a : Addr) : List Byte → Memory
  | []      => []
  | b :: bs => (memOf (a + 1) bs).write a b

/-- Ordinary memory everywhere, FAST_CONTRACT_ONLY false. -/
def plain : Params := { regions := [], fastContractOnly := false }

/-- Readable only from 0x1000 to 0x1000 + n. -/
def upTo (n : Nat) (k : AddrKind) : Params :=
  { regions := [⟨0x1000, 0x1000 + BitVec.ofNat 64 n, .ordinary⟩, ⟨0, 0xFFFFFFFFFFFFFFFF, k⟩], fastContractOnly := false }

/-- Idle after reset, with the input registers at the bytes, which start at 0x1000. -/
def idle (p : Params) (bs : List Byte) : State :=
  { State.reset with srcAddr := 0x1000, srcLen := BitVec.ofNat 64 bs.length, mem := memOf 0x1000 bs, params := p }

/-- A command running on those bytes that has consumed the first `i` of them and has `acc`. -/
def busyAt (m : Mode) (w : Width) (p : Params) (bs : List Byte) (i : Nat) (acc : Word) : State :=
  { idle p bs with
    busy := true, mode := m, width := w, base := 0x1000, len := BitVec.ofNat 64 bs.length,
    idx := BitVec.ofNat 64 i, acc := acc, consumed := bs.take i }

/-- "255", "256", "25a" and "12345678". -/
def s255 : List Byte := [0x32, 0x35, 0x35]
def s256 : List Byte := [0x32, 0x35, 0x36]
def s25a : List Byte := [0x32, 0x35, 0x61]
def s12345678 : List Byte := [0x31, 0x32, 0x33, 0x34, 0x35, 0x36, 0x37, 0x38]

/-! ### Well-formedness smoke: the check refuses the ill-formed term and passes the well-formed one -/

theorem test_wf_region_backwards : Region.wf ⟨2, 1, .unreadable⟩ = false := by decide

theorem test_wf_region_one_address : Region.wf ⟨1, 1, .unreadable⟩ = true := by decide

theorem test_wf_params_backwards : Params.wf ⟨[⟨0, 9, .device⟩, ⟨2, 1, .unreadable⟩], true⟩ = false := by decide

theorem test_wf_every_command :
    [Instr.parseFast, .parseChecked8, .parseChecked16, .parseChecked32, .parseChecked64].all Instr.wf = true := by decide

/-! ### Decoding (the words of R54 bit by bit: [63:6] reserved, [5:4] WSEL, [3:0] OP) -/

theorem test_decode_fast :
    decode ((0 : BitVec 58) ++ (0b00 : BitVec 2) ++ (0b0001 : BitVec 4)) = .ok .parseFast := by decide

theorem test_decode_checked8 :
    decode ((0 : BitVec 58) ++ (0b00 : BitVec 2) ++ (0b0010 : BitVec 4)) = .ok .parseChecked8 := by decide

theorem test_decode_checked16 :
    decode ((0 : BitVec 58) ++ (0b01 : BitVec 2) ++ (0b0010 : BitVec 4)) = .ok .parseChecked16 := by decide

theorem test_decode_checked32 :
    decode ((0 : BitVec 58) ++ (0b10 : BitVec 2) ++ (0b0010 : BitVec 4)) = .ok .parseChecked32 := by decide

theorem test_decode_checked64 :
    decode ((0 : BitVec 58) ++ (0b11 : BitVec 2) ++ (0b0010 : BitVec 4)) = .ok .parseChecked64 := by decide

/-- V7.6 to V7.9, V7.14 and V7.18: BAD, each by the test that fails first in R51. -/
theorem test_decode_bad :
    decode 0x00 = .error (.reservedOp 0) ∧ decode 0x03 = .error (.reservedOp 3) ∧
    decode 0x0F = .error (.reservedOp 15) ∧ decode 0x11 = .error (.fastWithWsel 1) ∧
    decode 0x42 = .error .reservedBits ∧ decode 0x8000000000000002 = .error .reservedBits := by decide

theorem test_decode_table_word :
    decodeTableWord 64 0x32 = some .parseChecked64 ∧ decodeTableWord 64 0x31 = none ∧
    decodeTableWord 8 0x01 = some .parseFast := by decide

theorem test_mnemonic_opcode_table :
    [Instr.parseFast, .parseChecked8, .parseChecked16, .parseChecked32, .parseChecked64].map mnemonic =
      ["PARSE_FAST", "PARSE_CHECKED8", "PARSE_CHECKED16", "PARSE_CHECKED32", "PARSE_CHECKED64"] := by decide

/-! ### The datapath -/

/-- V1.1: the chunk word of "12345678" and its three stages. -/
theorem test_swar_digits :
    leWord s12345678 = 0x3837363534333231 ∧
    swarBias 0x3837363534333231 = 0x0807060504030201 ∧
    swarStage1 0x0807060504030201 = 0x004E00380022000C ∧
    swarStage2 0x004E00380022000C = 0x0000162E000004D2 ∧
    swarStage3 0x0000162E000004D2 = 12345678 := by decide

/-- V2.1, V2.3 and V2.6: a borrow, a carry, and eight borrows. -/
theorem test_swar_non_digits :
    swarCollapse 0x383736353433322F = 247345678 ∧ swarCollapse 0x3A37363534333231 = 12345680 ∧
    swarCollapse 0 = 241393937 := by decide

/-- V3.3, V3.7 and V3.9: a digit, a wrap to 0, and a byte below '0'. -/
theorem test_fast_step :
    fastStep 12345678 0x39 = 123456789 ∧ fastStep 1844674407370955161 0x36 = 0 ∧
    fastStep 0 0x2F = 0xFFFFFFFFFFFFFFFF := by decide

/-- V5.4, V5.5, V5.7 and V5.9: the last accepted digit, the two overflows, and the digit test before the overflow test. -/
theorem test_checked_step_8 :
    checkedStep .w8 25 0x35 = .ok 255 ∧ checkedStep .w8 25 0x36 = .error .overflow ∧
    checkedStep .w8 26 0x30 = .error .overflow ∧ checkedStep .w8 26 0x61 = .error .invalidCharacter := by decide

/-- V5.34, V5.35 and V5.38: the same at 2^64 - 1. -/
theorem test_checked_step_64 :
    checkedStep .w64 1844674407370955161 0x35 = .ok 0xFFFFFFFFFFFFFFFF ∧
    checkedStep .w64 1844674407370955161 0x36 = .error .overflow ∧
    checkedStep .w64 1844674407370955161 0x2F = .error .invalidCharacter := by decide

/-- R11: "007" is 7 and the empty sequence is 0. -/
theorem test_value : value [0x30, 0x30, 0x37] = 7 ∧ value [] = 0 := by decide

/-! ### One step of each command -/

/-- P5, E1 (V9.2): the chunk at 0xFFFFFFFFFFFFFFFC wraps to address 0. -/
theorem test_fast_chunk_wraps :
    after (fun t => (t.acc, t.idx, t.busy))
      (exec .parseFast { busyAt .fast .w8 plain s12345678 0 0 with
        base := 0xFFFFFFFFFFFFFFFC, mem := memOf 0xFFFFFFFFFFFFFFFC [0x38, 0x37, 0x36, 0x35, 0x34, 0x33, 0x32, 0x31] }) =
      some (87654321, 8, true) := by decide

/-- V9.5: with only five bytes readable the chunk ends the command with BUS_ERROR, STATUS 0x12. -/
theorem test_fast_bus_error :
    after (fun t => (t.statusWord, t.result, t.idx)) (exec .parseFast (busyAt .fast .w8 (upTo 4 .unreadable) s12345678 0 0)) =
      some (0x12, 0, 0) := by decide

/-- V6.4: "256" overflows at byte 2. -/
theorem test_checked8_overflow :
    after (fun t => (t.err, t.result, t.idx)) (exec .parseChecked8 (busyAt .checked .w8 plain s256 2 25)) =
      some (.overflow, 0, 2) := by decide

/-- V6.6: "25a" is INVALID_CHARACTER, although 25 is DIV_8. -/
theorem test_checked8_invalid :
    after (fun t => (t.err, t.result)) (exec .parseChecked8 (busyAt .checked .w8 plain s25a 2 25)) =
      some (.invalidCharacter, 0) := by decide

/-- V6.12: "65535" at W = 16, its last DIGIT. -/
theorem test_checked16_last_digit :
    after (fun t => (t.acc, t.idx, t.busy))
      (exec .parseChecked16 (busyAt .checked .w16 plain [0x36, 0x35, 0x35, 0x33, 0x35] 4 6553)) =
      some (65535, 5, true) := by decide

/-- V6.23: "4294967296" at W = 32, byte 9. -/
theorem test_checked32_overflow :
    after (fun t => (t.statusWord, t.result))
      (exec .parseChecked32 (busyAt .checked .w32 plain [0x34, 0x32, 0x39, 0x34, 0x39, 0x36, 0x37, 0x32, 0x39, 0x36] 9 429496729)) =
      some (0x0A, 0) := by decide

/-- P3, E21: FINISH with 2^64 - 1 in all 64 bits. -/
theorem test_checked64_finish :
    after (fun t => (t.statusWord, t.result)) (exec .parseChecked64 (busyAt .checked .w64 plain [] 0 0xFFFFFFFFFFFFFFFF)) =
      some (0x02, 0xFFFFFFFFFFFFFFFF) := by decide

/-- V8.6: WR CMD, 0x22 starts a command, STATUS reads 0x01; the word as `withFetchWord` places it. -/
theorem test_step_issues_command :
    after (fun t => (t.statusWord, t.mode, t.width)) (step (State.reset.withFetchWord 64 0x22)) =
      some (0x01, .checked, .w32) := by decide

/-- P3, H2: WR CMD, 0x03 ends at once with BAD_COMMAND, STATUS 0x0E. -/
theorem test_bad_command :
    after (fun t => (t.statusWord, t.result)) (hostStep (.write 0x00 0x03) (idle plain s255)) = some (0x0E, 0) := by decide

/-! ### The Host port -/

/-- V8.4: offsets 0x28, 0x04 and 0x30 read 0. -/
theorem test_undefined_offsets :
    [0x28, 0x04, 0x30].map (State.readReg (idle plain s255)) = [0, 0, 0] := by decide

/-- R60 and the listing of P1: PARSE expands to three writes, a WAIT and a read. -/
theorem test_parse_expansion :
    assemble [.memw 0x1000 [0x37], .parse .parseFast 0x1000 1] =
      [.memWrite 0x1000 0x37, .write 0x08 0x1000, .write 0x10 1, .write 0x00 0x01, .wait, .read 0x18] := by decide

/-- R36: lane 0 is the byte at the lowest address. -/
theorem test_chunk_little_endian :
    byteLane (leWord s12345678) 0 = 0x31 ∧ byteLane (leWord s12345678) 7 = 0x38 := by decide

/-- Writing a byte and writing 0 over it leaves the memory as it was. -/
theorem test_memory_canonical :
    (Memory.write [] 5 0x31).write 5 0 = [] ∧ (Memory.write (Memory.write [] 5 1) 3 2) = [(3, 2), (5, 1)] := by decide

/-! ### Witnesses: for each obligation with hypotheses, a state and operands that meet them -/

theorem witness_DecodeAndEncodeAgree : decode 0x32 = .ok .parseChecked64 := by decide

/-- One value of each illegal class: OP 0, OP 3, WSEL with OP 1, bit 6, bit 63. -/
theorem witness_IllegalCommandValues :
    cmdOp 0x00 = 0 ∧ 3 ≤ (cmdOp 0x03).toNat ∧ (cmdOp 0x11 = 1 ∧ cmdWsel 0x11 ≠ 0) ∧ cmdReserved 0x42 ≠ 0 ∧
    cmdReserved 0x8000000000000001 ≠ 0 := by decide

theorem witness_IllegalCommandValues_idle :
    decode 0x03 = .error (.reservedOp 3) ∧ (idle plain s255).busy = false ∧
    (busyAt .fast .w8 plain s255 0 0).busy = true := by decide

/-- The five clauses: the Host's turn, an empty schedule, the placed word, the Engine's turn, an empty schedule. -/
theorem witness_StepRunsDecodedCommand :
    let s : State := { idle plain s255 with host := [.write 0x00 0x02], turns := [.host] }
    let t : State := { idle plain s255 with host := [.write 0x00 0x02] }
    let u : State := { busyAt .checked .w8 plain s255 0 0 with turns := [.engine] }
    let v : State := busyAt .checked .w8 plain s255 0 0
    (s.busy = false ∧ s.host = [.write 0x00 0x02] ∧ s.turns = [.host] ∧ decode 0x02 = .ok .parseChecked8) ∧
    (t.busy = false ∧ t.host = [.write 0x00 0x02] ∧ t.turns = []) ∧
    (u.busy = true ∧ u.turns = [.engine]) ∧ (v.busy = true ∧ v.turns = []) := by decide

theorem witness_CmdWriteIssuesCommand :
    (idle plain s255).busy = false ∧ decode 0x01 = .ok .parseFast ∧ decode 0x31 = .error (.fastWithWsel 3) := by decide

theorem witness_StartOfEveryCommand : (idle plain s255).busy = false := by decide

/-- Idle; running fast; running checked, with a next state in which the command still runs, and with one in which it has
ended. -/
theorem witness_EngineStepsExactlyWhenBusy :
    (idle plain s255).busy = false ∧
    ((busyAt .fast .w8 plain s255 0 0).busy = true ∧ (busyAt .fast .w8 plain s255 0 0).mode = .fast) ∧
    ((busyAt .checked .w8 plain s255 0 0).mode = .checked ∧
      after (fun t => t.busy) (engineTurn (busyAt .checked .w8 plain s255 0 0)) = some true) ∧
    after (fun t => t.busy) (engineTurn (busyAt .checked .w8 plain s256 2 25)) = some false := by decide

/-- An issue, a micro-step that goes on, and one that ends the command. -/
theorem witness_CommandFrame :
    ((idle plain s255).busy = false ∧ after (fun t => t.busy) (exec .parseFast (idle plain s255)) = some true) ∧
    ((busyAt .fast .w8 plain s255 0 0).busy = true ∧
      after (fun t => t.busy) (exec .parseFast (busyAt .fast .w8 plain s255 0 0)) = some true) ∧
    after (fun t => t.busy) (exec .parseFast (busyAt .fast .w8 plain s255 3 255)) = some false := by decide

/-- An offset without a register, beside and between those with one. -/
theorem witness_RegisterReads :
    (0x28 : Nat) ≠ 0x00 ∧ (0x28 : Nat) ≠ 0x08 ∧ (0x28 : Nat) ≠ 0x10 ∧ (0x28 : Nat) ≠ 0x18 ∧ (0x28 : Nat) ≠ 0x20 ∧
    regAt 0x20 = some .status ∧ regAt 0x21 = none ∧ regAt 0x07 = none := by decide

theorem witness_SourceRegistersAreReadWrite :
    (idle plain s255).busy = false ∧ (busyAt .fast .w8 plain s255 0 0).busy = true := by decide

theorem witness_WritesWhileBusyAreIgnored :
    (busyAt .fast .w8 plain s255 0 0).busy = true ∧ ((0x10 : Nat) = 0x00 ∨ (0x10 : Nat) = 0x08 ∨ (0x10 : Nat) = 0x10) := by
  decide

theorem witness_ReadOnlyWritesAreIgnored : (0x18 : Nat) ≠ 0x00 ∧ (0x18 : Nat) ≠ 0x08 ∧ (0x18 : Nat) ≠ 0x10 := by decide

theorem witness_WaitPollsStatus :
    let s : State := { idle plain s255 with host := [.wait], turns := [.host] }
    let t : State := { busyAt .fast .w8 plain s255 0 0 with host := [.wait], turns := [.host] }
    (s.turns = [.host] ∧ s.host = [.wait] ∧ s.busy = false) ∧ (t.turns = [.host] ∧ t.host = [.wait] ∧ t.busy = true) := by
  decide

theorem witness_ResetEventClearsTheBlock :
    let s : State := { busyAt .checked .w8 plain s255 2 25 with turns := [.reset] }
    s.turns = [.reset] ∧ after (fun t => t.busy) (step s) = some false ∧
      after (fun t => t.idx) (hostStep .reset s) = some 0 := by decide

theorem witness_HostMemoryWrite :
    Memory.wf (idle plain s255).mem ∧ (0xFFFFFFFFFFFFFFFF : Addr) ≠ 0 ∧
    (idle plain s255).kindAt 0xFFFFFFFFFFFFFFFF = .ordinary := by decide

/-- The last readable address, the first unreadable one, and a device. -/
theorem witness_HostMemoryRead :
    (idle (upTo 2 .unreadable) s255).kindAt 0x1002 = .ordinary ∧
    (idle (upTo 2 .unreadable) s255).kindAt 0x1003 = .unreadable ∧
    (idle (upTo 2 .device) s255).kindAt 0x1003 = .device := by decide

/-- R33 and R34: MEMW, then the byte read back. -/
theorem test_host_memory_read_back :
    after (fun t => t.reads) (run 2 { idle plain s255 with host := [.memWrite 0x1001 0x39, .memRead 0x1001] }) =
      some [0x39] := by decide

/-- An Engine step taken while the Host's next step is a memory write, and a Host step that is no memory write. -/
theorem witness_OnlyHostWritesChangeMemory :
    let s : State := { busyAt .checked .w8 plain s255 0 0 with host := [.memWrite 0x1000 0], turns := [.engine] }
    let t : State := { busyAt .checked .w8 plain s255 0 0 with host := [.read 0x20], turns := [.host] }
    ((nextTurn s).1 = .engine ∧ after (fun t => t.idx) (step s) = some 1) ∧
    (t.host = [.read 0x20] ∧ after (fun t => t.reads) (step t) = some [0x01]) := by decide

theorem witness_ChunkReadIsLittleEndian :
    ∀ k, k < 8 → (idle (upTo 7 .unreadable) s12345678).kindAt (addrAt 0x1000 k) = .ordinary := by decide

theorem witness_InputAddressesWrap :
    (State.base { idle plain s255 with base := 0xFFFFFFFFFFFFFFFF }).toNat + (1 : Word).toNat = 2 ^ 64 := by decide

/-- Both orders: a checked DIGIT on the byte '5' of "255", which the Host overwrites with '4', the same DIGIT of PARSE_FAST,
and byte 7 of a CHUNK. -/
theorem witness_RaceReadsByStepOrder :
    let c : State := { busyAt .checked .w8 plain s255 1 2 with host := [.memWrite 0x1001 0x34] }
    let d : State := { busyAt .fast .w8 plain s255 1 2 with host := [.memWrite 0x1001 0x34] }
    let k : State := { busyAt .fast .w8 plain s12345678 0 0 with host := [.memWrite 0x1007 0x34] }
    (Memory.wf c.mem ∧ c.busy = true ∧ c.mode = .checked ∧ c.idx ≠ c.len ∧ c.kindAt (c.inputAddr c.idx) = .ordinary ∧
      c.host = [.memWrite (c.inputAddr c.idx) 0x34]) ∧
    (Memory.wf d.mem ∧ d.busy = true ∧ d.mode = .fast ∧ ¬ (d.idx = 0 ∧ 8 ≤ d.len.toNat) ∧ d.idx.toNat < d.len.toNat ∧
      d.kindAt (d.inputAddr d.idx) = .ordinary ∧ d.host = [.memWrite (d.inputAddr d.idx) 0x34]) ∧
    (Memory.wf k.mem ∧ k.busy = true ∧ k.mode = .fast ∧ k.idx = 0 ∧ 8 ≤ k.len.toNat ∧
      (∀ j, j < 8 → k.kindAt (addrAt k.base j) = .ordinary) ∧ k.host = [.memWrite (addrAt k.base 7) 0x34]) ∧
    State.turns { c with turns := [.host, .engine] } = [.host, .engine] ∧
    State.turns { c with turns := [.engine, .host] } = [.engine, .host] := by decide

theorem busyAt_invariant : EngineInvariant { busyAt .fast .w8 plain s255 1 2 with turns := [.engine] } :=
  ⟨by decide, by decide, by decide, by decide⟩

/-- The same input with other bytes and no readable address outside it. -/
theorem witness_BytesOutsideTheInputAreNotRead :
    let s : State := { busyAt .fast .w8 plain s255 1 2 with turns := [.engine] }
    let m : Memory := memOf 0x1000 (s255 ++ [0x39, 0x39])
    EngineInvariant s ∧ s.turns = List.replicate 1 .engine ∧ m ≠ s.mem ∧
    ∀ k, k < s.len.toNat → m.read (addrAt s.base k) = s.mem.read (addrAt s.base k) ∧
      kindIn (upTo 2 .device).regions (addrAt s.base k) = s.kindAt (addrAt s.base k) :=
  ⟨busyAt_invariant, by decide, by decide, by decide⟩

/-- The three outcomes at the boundary acc = DIV_8. -/
theorem witness_CheckedDigitStep :
    isDigit 0x61 = false ∧ (isDigit 0x36 = true ∧ accepts .w8 (25 : Word).toNat (digitValue 0x36) = false) ∧
    (isDigit 0x35 = true ∧ accepts .w8 (25 : Word).toNat (digitValue 0x35) = true) := by decide

/-- The three cases of R74 at W = 8: below, at and above DIV_8, and a digit step that accepts. -/
theorem witness_AcceptIsExact :
    (24 ≤ maxW .w8 ∧ 9 ≤ 9 ∧ 24 < divW .w8) ∧ 25 = divW .w8 ∧ (26 ≤ maxW .w8 ∧ divW .w8 < 26) ∧
    checkedStep .w8 25 0x35 = .ok 255 := by decide

/-- The five cases: FINISH, an unreadable byte, a non-digit, an overflow, an accepted digit. -/
theorem witness_CheckedMicroStep :
    let f := busyAt .checked .w8 plain s255 3 255
    let u := busyAt .checked .w8 (upTo 1 .unreadable) s255 2 25
    let n := busyAt .checked .w8 plain s25a 2 25
    let o := busyAt .checked .w8 plain s256 2 25
    let a := busyAt .checked .w8 plain s255 2 25
    (f.busy = true ∧ f.running = checkedInstr .w8 ∧ f.idx = f.len) ∧
    (u.running = checkedInstr .w8 ∧ u.idx ≠ u.len ∧ u.kindAt (u.inputAddr u.idx) = .unreadable) ∧
    (n.idx ≠ n.len ∧ n.kindAt (n.inputAddr n.idx) = .ordinary ∧ isDigit (n.mem.read (n.inputAddr n.idx)) = false) ∧
    (isDigit (o.mem.read (o.inputAddr o.idx)) = true ∧
      maxW .w8 < o.acc.toNat * 10 + digitValue (o.mem.read (o.inputAddr o.idx))) ∧
    (isDigit (a.mem.read (a.inputAddr a.idx)) = true ∧
      a.acc.toNat * 10 + digitValue (a.mem.read (a.inputAddr a.idx)) ≤ maxW .w8) := by decide

theorem idle_ordinary (bs : List Byte) : (idle plain bs).InputOrdinary := fun _ _ => rfl

/-- No byte of "255" stops a parse at W = 8. -/
theorem noStop_255 : ∀ i, ¬ StopsAt .w8 s255 i := by
  rintro (_ | _ | _ | i) ⟨b, hb, h⟩
  · cases hb; revert h; decide
  · cases hb; revert h; decide
  · cases hb; revert h; decide
  · cases hb

/-- Byte 2 of "256" is the first that stops a parse at W = 8. -/
theorem firstStop_256 : FirstStop .w8 s256 2 := by
  refine ⟨⟨0x36, rfl, by decide⟩, ?_⟩
  rintro (_ | _ | j) hj ⟨b, hb, h⟩
  · cases hb; revert h; decide
  · cases hb; revert h; decide
  · omega

/-- Byte 2 of "25a" is the first that stops a parse at W = 8. -/
theorem firstStop_25a : FirstStop .w8 s25a 2 := by
  refine ⟨⟨0x61, rfl, by decide⟩, ?_⟩
  rintro (_ | _ | j) hj ⟨b, hb, h⟩
  · cases hb; revert h; decide
  · cases hb; revert h; decide
  · omega

theorem input_255 : (idle plain s255).input = s255 ∧ (idle plain s256).input = s256 ∧ (idle plain s25a).input = s25a := by
  decide

/-- The three endings: a value, OVERFLOW, INVALID_CHARACTER. -/
theorem witness_CheckedCommandOutcome :
    ((idle plain s255).busy = false ∧ (idle plain s255).turns = [] ∧ (idle plain s255).InputOrdinary ∧
      ∀ i, ¬ StopsAt .w8 (idle plain s255).input i) ∧
    ((idle plain s256).InputOrdinary ∧ FirstStop .w8 (idle plain s256).input 2 ∧
      (idle plain s256).input[2]? = some 0x36) ∧
    (FirstStop .w8 (idle plain s25a).input 2 ∧ (idle plain s25a).input[2]? = some 0x61) := by
  rw [input_255.1, input_255.2.1, input_255.2.2]
  exact ⟨⟨rfl, rfl, idle_ordinary _, noStop_255⟩, ⟨idle_ordinary _, firstStop_256, rfl⟩, firstStop_25a, rfl⟩

/-- "256", one above MAX_8, and "255", MAX_8 itself, each as the input of a command. -/
theorem witness_DigitInputStopsExactlyOnOverflow :
    ((idle plain s256).busy = false ∧ (idle plain s256).turns = [] ∧ (idle plain s256).InputOrdinary ∧
      (idle plain s256).input.all isDigit = true ∧ maxW .w8 < value (idle plain s256).input) ∧
    ((idle plain s255).InputOrdinary ∧ (idle plain s255).input.all isDigit = true ∧
      value (idle plain s255).input ≤ maxW .w8 ∧ ∀ i, ¬ StopsAt .w8 s255 i) :=
  ⟨⟨rfl, rfl, idle_ordinary _, by decide, by decide⟩, idle_ordinary _, by decide, by decide, noStop_255⟩

theorem witness_EmptyInputParsesToZero :
    (idle plain []).busy = false ∧ (idle plain []).turns = [] ∧ (idle plain []).srcLen = 0 := by decide

/-- A stopping byte with the next bytes unreadable, and an unreadable byte after an accepted one. -/
theorem witness_LowestFailingByteWins :
    ((idle (upTo 2 .unreadable) s256).busy = false ∧ (idle (upTo 2 .unreadable) s256).turns = [] ∧
      FirstStop .w8 (idle (upTo 2 .unreadable) s256).input 2 ∧ (idle (upTo 2 .unreadable) s256).input[2]? = some 0x36 ∧
      ∀ j, j ≤ 2 → (idle (upTo 2 .unreadable) s256).kindAt (addrAt 0x1000 j) = .ordinary) ∧
    (1 < (idle (upTo 0 .unreadable) s255).srcLen.toNat ∧
      (idle (upTo 0 .unreadable) s255).kindAt (addrAt 0x1000 1) = .unreadable ∧
      ∀ j, j < 1 → (idle (upTo 0 .unreadable) s255).kindAt (addrAt 0x1000 j) = .ordinary ∧
        ¬ StopsAt .w8 (idle (upTo 0 .unreadable) s255).input j) := by
  have h6 : (idle (upTo 2 .unreadable) s256).input = s256 := by decide
  have h5 : (idle (upTo 0 .unreadable) s255).input = s255 := by decide
  rw [h6, h5]
  exact ⟨⟨rfl, rfl, firstStop_256, rfl, by decide⟩, by decide, by decide, fun j hj => by
    obtain rfl : j = 0 := by omega
    exact ⟨by decide, noStop_255 0⟩⟩

theorem witness_SwarLaneLaw :
    s12345678.length = 8 ∧ s12345678.all isDigit = true ∧
    ∀ (k : Nat) (b : Byte), s12345678[k]? = some b → (s12345678[k]?.map digitValue).getD 0 = digitValue b :=
  ⟨by decide, by decide, fun k b h => by rw [h]; rfl⟩

theorem witness_UncheckedDigitStep : isDigit 0x30 = true ∧ isDigit 0x39 = true := by decide

/-- CHUNK with readable bytes and with the last byte unreadable; DIGIT with a readable byte and with an unreadable one. -/
theorem witness_FastMicroStep :
    let c := busyAt .fast .w8 (upTo 7 .unreadable) s12345678 0 0
    let u := busyAt .fast .w8 (upTo 6 .unreadable) s12345678 0 0
    let d := busyAt .fast .w8 plain s255 2 25
    let v := busyAt .fast .w8 (upTo 1 .unreadable) s255 2 25
    (c.busy = true ∧ c.mode = .fast ∧ c.idx = 0 ∧ 8 ≤ c.len.toNat ∧ ∀ k, k < 8 → c.kindAt (addrAt c.base k) = .ordinary) ∧
    (u.kindAt (addrAt u.base 7) = .unreadable ∧ ∀ k, k < 8 → u.kindAt (addrAt u.base k) ≠ .device) ∧
    (¬ (d.idx = 0 ∧ 8 ≤ d.len.toNat) ∧ d.idx.toNat < d.len.toNat ∧ d.kindAt (d.inputAddr d.idx) = .ordinary) ∧
    (v.idx.toNat < v.len.toNat ∧ v.kindAt (v.inputAddr v.idx) = .unreadable) := by decide

/-- FINISH outside FAST_CONTRACT_ONLY, within the contract, and outside the contract. -/
theorem witness_FastFinish :
    let s := busyAt .fast .w8 plain s255 3 255
    let t : State := { s with params := { plain with fastContractOnly := true } }
    let u : State := { t with consumed := s25a }
    (s.busy = true ∧ s.mode = .fast ∧ s.len.toNat ≤ s.idx.toNat ∧ s.params.fastContractOnly = false) ∧
    contractOk t.consumed = true ∧ (u.params.fastContractOnly = true ∧ contractOk u.consumed = false) := by decide

theorem witness_FastCommandOutcome :
    (idle plain s12345678).busy = false ∧ (idle plain s12345678).turns = [] ∧ (idle plain s12345678).InputOrdinary :=
  ⟨rfl, rfl, idle_ordinary _⟩

/-- A value below 2^32 and one above it. -/
theorem witness_DigitOnlyLaw :
    s12345678.all isDigit = true ∧ value s12345678 < 2 ^ 32 ∧
    (s12345678 ++ s12345678).all isDigit = true ∧ 2 ^ 32 ≤ value (s12345678 ++ s12345678) := by decide

/-- A value within 32 bits and one above it. -/
theorem witness_FastAndChecked32Agree :
    ((idle plain s255).busy = false ∧ (idle plain s255).turns = [] ∧ (idle plain s255).InputOrdinary ∧
      (idle plain s255).input.all isDigit = true ∧ (idle plain s255).params.fastContractOnly = false ∧
      value (idle plain s255).input ≤ 4294967295) ∧
    ((idle plain (s12345678 ++ s255)).InputOrdinary ∧ (idle plain (s12345678 ++ s255)).input.all isDigit = true ∧
      4294967295 < value (idle plain (s12345678 ++ s255)).input) :=
  ⟨⟨rfl, rfl, idle_ordinary _, by decide, rfl, by decide⟩, idle_ordinary _, by decide, by decide⟩

theorem witness_FastNeverRaisesParseErrors :
    (busyAt .fast .w8 plain s25a 3 0).busy = true ∧ (busyAt .fast .w8 plain s25a 3 0).mode = .fast ∧
    after (fun t => t.busy) (exec .parseFast (busyAt .fast .w8 plain s25a 3 0)) = some false := by decide

/-- A micro-step that ends with OVERFLOW, and a CMD write that ends with BAD_COMMAND. -/
theorem witness_ErrorsLeaveResultZero :
    ((busyAt .checked .w8 plain s256 2 25).busy = true ∧
      after (fun t => (t.busy, t.err)) (exec .parseChecked8 (busyAt .checked .w8 plain s256 2 25)) =
        some (false, .overflow)) ∧
    ((idle plain s255).busy = false ∧
      after (fun t => t.busy) (hostStep (.write 0x00 0x03) (idle plain s255)) = some false) := by decide

/-- A checked digit, a fast digit, and byte 7 of a chunk. -/
theorem witness_UnreadableByteEndsWithBusError :
    let c := busyAt .checked .w8 (upTo 1 .unreadable) s255 2 25
    let d := busyAt .fast .w8 (upTo 1 .unreadable) s255 2 25
    let k := busyAt .fast .w8 (upTo 6 .unreadable) s12345678 0 0
    (c.busy = true ∧ c.mode = .checked ∧ c.idx ≠ c.len ∧ c.memReadable (c.inputAddr c.idx) = false) ∧
    (d.mode = .fast ∧ ¬ (d.idx = 0 ∧ 8 ≤ d.len.toNat) ∧ d.idx.toNat < d.len.toNat ∧
      d.memReadable (d.inputAddr d.idx) = false) ∧
    (k.mode = .fast ∧ k.idx = 0 ∧ 8 ≤ k.len.toNat ∧ k.memReadable (addrAt k.base 7) = false ∧
      ∀ j, j < 8 → k.kindAt (addrAt k.base j) ≠ .device) := by decide

/-- The same three reads at a device. -/
theorem witness_DeviceReadsAreRefused :
    let c := busyAt .checked .w8 (upTo 1 .device) s255 2 25
    let d := busyAt .fast .w8 (upTo 1 .device) s255 2 25
    let k := busyAt .fast .w8 (upTo 6 .device) s12345678 0 0
    (c.busy = true ∧ c.mode = .checked ∧ c.idx ≠ c.len ∧ c.kindAt (c.inputAddr c.idx) = .device) ∧
    (d.mode = .fast ∧ ¬ (d.idx = 0 ∧ 8 ≤ d.len.toNat) ∧ d.idx.toNat < d.len.toNat ∧
      d.kindAt (d.inputAddr d.idx) = .device) ∧
    (k.idx = 0 ∧ 8 ≤ k.len.toNat ∧ k.kindAt (addrAt k.base 7) = .device) := by decide

/-- After an OVERFLOW, a read of STATUS (V8.12), and an Engine turn while the Host's next step is a CMD write. -/
theorem witness_ErrAndDoneAreSticky :
    let s : State := { idle plain s256 with done := true, err := .overflow, host := [.read 0x20] }
    let t : State := { s with host := [.write 0x00 0x01], turns := [.engine] }
    (s.busy = false ∧ (nextTurn s).1 = .host ∧ s.host = [.read 0x20] ∧
      after (fun t => t.reads) (step s) = some [0x0A]) ∧
    (t.busy = false ∧ (nextTurn t).1 = .engine ∧ after (fun t => t.err) (step t) = some .overflow) := by decide

/-- Running on "255" with two bytes consumed. -/
theorem running_invariant : Invariant (busyAt .checked .w8 plain s255 2 25) :=
  { busyNotDone := by decide, idxLeLen := by decide, accLeMax := by decide, chunkFirst := by decide
    errOnlyWhenDone := by decide, resultOnError := by decide, resultFast := by decide, resultChecked := by decide
    consumedLength := by decide, consumedDigits := by decide, consumedFast := by decide, memoryCanonical := by decide }

theorem witness_StepKeepsInvariant :
    Invariant (busyAt .checked .w8 plain s255 2 25) ∧
    after (fun t => t.acc) (step (busyAt .checked .w8 plain s255 2 25)) = some 255 := ⟨running_invariant, by decide⟩

/-- From reset with "255" in memory and a Host that issues PARSE_CHECKED8: five steps on, a command is running that has
consumed two bytes. -/
theorem witness_ReachableStatesMeetR31 :
    let s : State := { State.reset with
      mem := memOf 0x1000 s255, params := plain, host := issueSteps .parseChecked8 0x1000 3 }
    CleanEntry s ∧ after (fun t => (t.busy, t.mode, t.idx, t.acc)) (run 5 s) = some (true, .checked, 2, 25) :=
  ⟨⟨by decide, rfl⟩, by decide⟩

theorem witness_StatusValues : Invariant (busyAt .checked .w8 plain s255 2 25) := running_invariant

/-- Two idle states that differ in all six of MODE, W, BASE, LEN, IDX and ACC. -/
theorem witness_EngineStateIsNotObservable :
    let t : State := { idle plain s255 with mode := .checked, width := .w64, base := 1, len := 2, idx := 3, acc := 4 }
    (idle plain s255).busy = false ∧ SameObserved (idle plain s255) t :=
  ⟨rfl, rfl, rfl, rfl, rfl, rfl, rfl, rfl, rfl, rfl, rfl, rfl, rfl⟩

theorem witness_EveryCommandFinishes :
    let s := busyAt .checked .w8 plain s255 2 25
    EngineInvariant s ∧ s.busy = true ∧ s.turns = [] ∧ ∀ k, k < s.len.toNat → s.kindAt (addrAt s.base k) ≠ .device :=
  ⟨running_invariant.toEngineInvariant, by decide, by decide, by decide⟩

/-- PARSE PARSE_CHECKED32 on "7" under an interleaving: the Host reaches its end with 7 read back. -/
theorem witness_ParseProgramReadsTheValue :
    let s : State := { idle plain [0x37] with
      host := (HostLine.parse .parseChecked32 0x1000 1).steps,
      turns := [.host, .engine, .host, .host, .host, .engine, .host, .engine, .host, .host] }
    s.busy = false ∧ Turn.reset ∉ s.turns ∧
    (∀ j, j < (1 : Word).toNat → s.kindAt (addrAt 0x1000 j) = .ordinary) ∧
    contractOk (bytesFrom s.mem 0x1000 (1 : Word).toNat) = true ∧
    after (fun t => (t.host, t.reads)) (run 10 s) = some ([], [7, 0x02, 0x01, 0x01]) := by decide

end Sys2Proof.Tests
end

section
/-! Proofs of the family 10_state: the Host's register accesses, the issue of a command, and the noninterference claim of
spec/10_state.md R32. -/

namespace Sys2Proof.Machine

/-! ### Command issue (R25, R26) -/

theorem exec_parseFast_idle {s : State} (h : s.busy = false) : exec .parseFast s = .next s.startFast := by
  rw [exec_parseFast, commandStep_idle h]

theorem exec_checkedInstr_idle {s : State} (w : Width) (h : s.busy = false) :
    exec (checkedInstr w) s = .next (s.startChecked w) := by
  rw [exec_checkedInstr, commandStep_idle h]

theorem issueCommand_ok {v : Word} {i : Instr} (s : State) (h : decode v = .ok i) : issueCommand v s = exec i s := by
  simp [issueCommand, h]

theorem issueCommand_error {v : Word} {e : DecodeReject} (s : State) (h : decode v = .error e) :
    issueCommand v s = .next (s.finish .badCommand 0) := by simp [issueCommand, h]

@[simp] theorem hostStep_write (offset : Nat) (v : Word) (s : State) :
    hostStep (.write offset v) s = writeReg offset v s := rfl

/-- Settles O7: the issue of each command is its `start`. -/
theorem startOfEveryCommand : Obligations.StartOfEveryCommand :=
  fun _ h => ⟨exec_parseFast_idle h, fun w => exec_checkedInstr_idle w h⟩

/-- Settles O6: with BUSY = 0 a CMD write is `issueCommand`, which runs the issue of the decoded command or finishes with
BAD_COMMAND. -/
theorem cmdWriteIssuesCommand : Obligations.CmdWriteIssuesCommand := by
  intro s v hb
  rw [hostStep_write, writeReg_cmd_idle v hb]
  refine ⟨fun hd => ?_, fun w hd => ?_, fun e hd => issueCommand_error s hd⟩
  · rw [issueCommand_ok s hd]
    exact exec_parseFast_idle hb
  · rw [issueCommand_ok s hd]
    exact exec_checkedInstr_idle w hb

/-! ### Register accesses (R23, R24) -/

theorem writeReg_srcAddr_idle {s : State} (v : Word) (h : s.busy = false) :
    writeReg 0x08 v s = .next { s with srcAddr := v } := by simp [writeReg, regAt, h]

theorem writeReg_srcLen_idle {s : State} (v : Word) (h : s.busy = false) :
    writeReg 0x10 v s = .next { s with srcLen := v } := by simp [writeReg, regAt, h]

/-- RESULT, STATUS and offsets without a register ignore writes (R19 to R21). -/
theorem writeReg_readOnly {offset : Nat} (v : Word) (s : State) (h00 : offset ≠ 0x00) (h08 : offset ≠ 0x08)
    (h10 : offset ≠ 0x10) : writeReg offset v s = .next s := by
  simp only [writeReg, regAt, h00, h08, h10, if_false]
  split_ifs <;> rfl

/-- An offset that names none of the five registers reads 0 (R21, R61). -/
theorem State.readReg_of_none {offset : Nat} (s : State) (h : regAt offset = none) : s.readReg offset = 0 := by
  simp [State.readReg, h]

/-- Settles O10: a Host read returns `readReg` at its offset. -/
theorem registerReads : Obligations.RegisterReads := by
  intro s offset
  refine ⟨s.readReg offset, rfl, ?_, ?_, ?_, ?_, ?_, fun h00 h08 h10 h18 h20 => ?_⟩
  iterate 5 · rintro rfl; rfl
  · exact s.readReg_of_none (by simp [regAt, h00, h08, h10, h18, h20])

/-- Settles O13: while BUSY = 1 `writeReg` answers the state itself, whatever the offset. -/
theorem writesWhileBusyAreIgnored : Obligations.WritesWhileBusyAreIgnored :=
  fun _ offset v hb _ => writeReg_busy offset v hb

/-! ### States alike (R32)

The relation `Alike` is kept by every step: while no command runs the two states share all that can be observed, and while
one runs they share also what the Engine has latched.  A start writes the latched state from observed registers, a finish
writes observed registers from latched state that is shared, and most other operations do not look at the Engine at all
(`Alike.map`). -/

/-- Two states the Host cannot tell apart: what it can observe agrees, and the Engine's state too while a command runs. -/
def Alike (s t : State) : Prop := SameObserved s t ∧ (s.busy = true → SameEngine s t)

/-- `s` with the Engine's internal state of `u`. -/
def State.withEngine (s u : State) : State :=
  { s with mode := u.mode, width := u.width, base := u.base, len := u.len, idx := u.idx, acc := u.acc,
           consumed := u.consumed }

theorem sameObserved_withEngine (s u : State) : SameObserved s (s.withEngine u) := by
  simp [SameObserved, State.withEngine]

theorem Alike.refl (s : State) : Alike s s := by simp [Alike, SameObserved, SameEngine]

/-- An outcome is the same as itself: the block has no fault (R108). -/
theorem SameOutcome.refl {R : State → State → Prop} (hR : ∀ s, R s s) : ∀ o, SameOutcome R o o
  | .next s    => hR s
  | .refused _ => rfl

section
variable {s t : State}

/-- States that agree on what is observed differ in the Engine's fields only. -/
theorem SameObserved.eq_withEngine (h : SameObserved s t) : t = s.withEngine t := by
  obtain ⟨hsrcAddr, hsrcLen, hresult, hbusy, hdone, herr, hmem, hparams, hhost, hturns, hreads, hdraws⟩ := h
  simp only [State.withEngine, hsrcAddr, hsrcLen, hresult, hbusy, hdone, herr, hmem, hparams, hhost, hturns, hreads,
    hdraws]

theorem SameObserved.busy (h : SameObserved s t) : t.busy = s.busy := by rw [h.eq_withEngine]; rfl

theorem SameObserved.host (h : SameObserved s t) : t.host = s.host := by rw [h.eq_withEngine]; rfl

theorem SameObserved.turns (h : SameObserved s t) : t.turns = s.turns := by rw [h.eq_withEngine]; rfl

theorem SameObserved.params (h : SameObserved s t) : t.params = s.params := by rw [h.eq_withEngine]; rfl

theorem SameObserved.memRead (h : SameObserved s t) (a : Addr) : t.memRead a = s.memRead a := by
  rw [h.eq_withEngine]; rfl

theorem SameObserved.readBytes (h : SameObserved s t) : ∀ (n : Nat) (a : Addr), t.readBytes a n = s.readBytes a n
  | 0, _     => rfl
  | n + 1, a => by rw [State.readBytes_succ, State.readBytes_succ, h.memRead, h.readBytes n]

theorem SameObserved.alike_of_idle (h : SameObserved s t) (hb : s.busy = false) : Alike s t :=
  ⟨h, fun h1 => by simp [hb] at h1⟩

/-- While a checked command runs nothing may differ. -/
theorem Alike.eq_of_checked (h : Alike s t) (hb : s.busy = true) (hm : s.mode = .checked) : t = s := by
  obtain ⟨hmode, hwidth, hbase, hlen, hidx, hacc, hcons⟩ := h.2 hb
  rw [h.1.eq_withEngine]
  simp only [State.withEngine, ← hmode, ← hwidth hm, ← hbase, ← hlen, ← hidx, ← hacc, ← hcons]

/-! ### Operations that keep states alike -/

/-- An operation that neither reads nor writes the Engine's state, and starts no command, keeps states alike. -/
theorem Alike.map {f : State → State} (h : Alike s t) (hf : ∀ v u, f (v.withEngine u) = (f v).withEngine u)
    (hb : ∀ v, (f v).busy = true → v.busy = true) : Alike (f s) (f t) := by
  have hs : f s = (f s).withEngine s := hf s s
  have ht : f t = (f s).withEngine t := by rw [← hf, ← h.1.eq_withEngine]
  rw [ht]
  refine ⟨sameObserved_withEngine _ _, fun h1 => ?_⟩
  rw [hs]
  exact h.2 (hb s h1)

theorem Alike.finish (h : Alike s t) (e : ErrCode) (v : Word) : Alike (s.finish e v) (t.finish e v) :=
  h.map (f := fun u => u.finish e v) (fun _ _ => rfl) (by simp)

theorem Alike.advance (h : Alike s t) (hb : s.busy = true) (acc idx : Word) (bs : List Byte) :
    Alike (s.advance acc idx bs) (t.advance acc idx bs) := by
  obtain ⟨hmode, hwidth, hbase, hlen, -, -, hcons⟩ := h.2 hb
  exact ⟨h.1, fun _ => ⟨hmode, hwidth, hbase, hlen, rfl, rfl, by simp [hcons]⟩⟩

theorem SameObserved.alike_resetEvent (h : SameObserved s t) : Alike s.resetEvent t.resetEvent := by
  rw [h.eq_withEngine]
  exact Alike.refl _

/-- A fast command leaves W as it was, so W may still differ after its start. -/
theorem SameObserved.alike_startFast (h : SameObserved s t) : Alike s.startFast t.startFast := by
  rw [h.eq_withEngine]
  exact ⟨sameObserved_withEngine s.startFast (s.withEngine t).startFast, fun _ => by simp [SameEngine, State.withEngine]⟩

theorem SameObserved.alike_startChecked (h : SameObserved s t) (w : Width) :
    Alike (s.startChecked w) (t.startChecked w) := by
  rw [h.eq_withEngine]
  exact Alike.refl _

/-! ### Engine turns of states alike -/

theorem Alike.fastChunk (h : Alike s t) (hb : s.busy = true) :
    SameOutcome Alike (fastChunk s) (fastChunk t) := by
  obtain ⟨-, -, hbase, -⟩ := h.2 hb
  simp only [Machine.fastChunk, State.readChunk, h.1.readBytes, ← hbase]
  cases s.readBytes s.base 8 with
  | value bs => exact h.advance hb _ _ _
  | unreadable => exact h.finish _ _
  | device a => rfl

theorem Alike.fastDigit (h : Alike s t) (hb : s.busy = true) :
    SameOutcome Alike (fastDigit s) (fastDigit t) := by
  obtain ⟨-, -, hbase, -, hidx, hacc, -⟩ := h.2 hb
  simp only [Machine.fastDigit, State.inputAddr, h.1.memRead, ← hbase, ← hidx, ← hacc]
  cases s.memRead (s.base + s.idx) with
  | value b => exact h.advance hb _ _ _
  | unreadable => exact h.finish _ _
  | device a => rfl

theorem Alike.fastFinish (h : Alike s t) (hb : s.busy = true) : Alike (fastFinish s) (fastFinish t) := by
  obtain ⟨-, -, -, -, -, hacc, hcons⟩ := h.2 hb
  simp only [Machine.fastFinish, h.1.params, ← hacc, ← hcons]
  split_ifs
  · exact h.map (f := fun u => { u.finish .none (zext64 (Config.draw32 u.draws)) with draws := u.draws + 1 })
      (fun _ _ => rfl) (by simp)
  · exact h.finish _ _

theorem Alike.fastMicroStep (h : Alike s t) (hb : s.busy = true) :
    SameOutcome Alike (fastMicroStep s) (fastMicroStep t) := by
  obtain ⟨-, -, -, hlen, hidx, -⟩ := h.2 hb
  simp only [Machine.fastMicroStep, ← hlen, ← hidx]
  split_ifs
  · exact h.fastChunk hb
  · exact h.fastDigit hb
  · exact h.fastFinish hb

theorem Alike.engineTurn (h : Alike s t) : SameOutcome Alike (engineTurn s) (engineTurn t) := by
  cases hb : s.busy with
  | false =>
    rw [engineTurn_idle hb, engineTurn_idle (h.1.busy.trans hb)]
    exact h
  | true =>
    cases hm : s.mode with
    | fast =>
      obtain ⟨hmode, -⟩ := h.2 hb
      rw [engineTurn_fast hb hm, engineTurn_fast (h.1.busy.trans hb) (hmode ▸ hm)]
      exact h.fastMicroStep hb
    | checked =>
      rw [h.eq_of_checked hb hm]
      exact SameOutcome.refl Alike.refl _

/-! ### Host turns of states alike -/

theorem Alike.issueCommand (h : Alike s t) (hb : s.busy = false) (v : Word) :
    SameOutcome Alike (issueCommand v s) (issueCommand v t) := by
  have hbt : t.busy = false := h.1.busy.trans hb
  cases hd : decode v with
  | error e =>
    rw [issueCommand_error s hd, issueCommand_error t hd]
    exact h.finish _ _
  | ok i =>
    rw [issueCommand_ok s hd, issueCommand_ok t hd]
    obtain rfl | ⟨w, rfl⟩ := instr_cases i
    · rw [exec_parseFast_idle hb, exec_parseFast_idle hbt]
      exact h.1.alike_startFast
    · rw [exec_checkedInstr_idle w hb, exec_checkedInstr_idle w hbt]
      exact h.1.alike_startChecked w

theorem Alike.writeReg (h : Alike s t) (offset : Nat) (v : Word) :
    SameOutcome Alike (writeReg offset v s) (writeReg offset v t) := by
  cases hb : s.busy with
  | true =>
    rw [writeReg_busy offset v hb, writeReg_busy offset v (h.1.busy.trans hb)]
    exact h
  | false =>
    have hbt : t.busy = false := h.1.busy.trans hb
    by_cases h00 : offset = 0x00
    · rw [h00, writeReg_cmd_idle v hb, writeReg_cmd_idle v hbt]
      exact h.issueCommand hb v
    by_cases h08 : offset = 0x08
    · rw [h08, writeReg_srcAddr_idle v hb, writeReg_srcAddr_idle v hbt]
      exact h.map (f := fun u => { u with srcAddr := v }) (fun _ _ => rfl) (fun _ => id)
    by_cases h10 : offset = 0x10
    · rw [h10, writeReg_srcLen_idle v hb, writeReg_srcLen_idle v hbt]
      exact h.map (f := fun u => { u with srcLen := v }) (fun _ _ => rfl) (fun _ => id)
    · rw [writeReg_readOnly v s h00 h08 h10, writeReg_readOnly v t h00 h08 h10]
      exact h

theorem Alike.hostMemRead (h : Alike s t) (a : Addr) : SameOutcome Alike (hostMemRead a s) (hostMemRead a t) := by
  simp only [Machine.hostMemRead, h.1.memRead]
  cases s.memRead a with
  | value b => exact h.map (f := fun u => u.returned (zext64 b)) (fun _ _ => rfl) (fun _ => id)
  | unreadable =>
    exact h.map (f := fun u => { u.returned (zext64 (Config.freeByte u.draws)) with draws := u.draws + 1 })
      (fun _ _ => rfl) (fun _ => id)
  | device a => rfl

theorem Alike.waitPoll (h : Alike s t) : Alike (waitPoll s) (waitPoll t) := by
  cases hb : s.busy with
  | true =>
    rw [waitPoll_busy hb, waitPoll_busy (h.1.busy.trans hb)]
    exact h.map (f := fun u => { u with reads := u.statusWord :: u.reads, host := .wait :: u.host })
      (fun _ _ => rfl) (fun _ => id)
  | false =>
    rw [waitPoll_idle hb, waitPoll_idle (h.1.busy.trans hb)]
    exact h.map (f := fun u => { u with reads := u.statusWord :: u.reads }) (fun _ _ => rfl) (fun _ => id)

theorem Alike.hostStep (h : Alike s t) (op : HostOp) : SameOutcome Alike (hostStep op s) (hostStep op t) := by
  cases op with
  | write offset v => exact h.writeReg offset v
  | read offset => exact h.map (f := fun u => u.returned (u.readReg offset)) (fun _ _ => rfl) (fun _ => id)
  | memWrite a b => exact h.map (f := fun u => { u with mem := u.mem.write a b }) (fun _ _ => rfl) (fun _ => id)
  | memRead a => exact h.hostMemRead a
  | reset => exact h.1.alike_resetEvent
  | wait => exact h.waitPoll

theorem Alike.hostTurn (h : Alike s t) : SameOutcome Alike (hostTurn s) (hostTurn t) := by
  cases hh : s.host with
  | nil =>
    rw [hostTurn_nil hh, hostTurn_nil (h.1.host.trans hh)]
    exact h
  | cons op ops =>
    rw [hostTurn_cons hh, hostTurn_cons (h.1.host.trans hh)]
    exact (h.map (f := fun u => { u with host := ops }) (fun _ _ => rfl) (fun _ => id)).hostStep op

/-! ### Steps and runs of states alike -/

theorem Alike.runTurn (h : Alike s t) : ∀ a, SameOutcome Alike (runTurn a s) (runTurn a t)
  | .host   => h.hostTurn
  | .engine => h.engineTurn
  | .reset  => h.1.alike_resetEvent

/-- States alike have the same agent's turn next, so their steps are alike. -/
theorem Alike.step (h : Alike s t) : SameOutcome Alike (step s) (step t) := by
  cases hts : s.turns with
  | cons a ts =>
    rw [step_turn hts, step_turn (h.1.turns.trans hts)]
    exact (h.map (f := fun u => { u with turns := ts }) (fun _ _ => rfl) (fun _ => id)).runTurn a
  | nil =>
    have htt : t.turns = [] := h.1.turns.trans hts
    cases hb : s.busy with
    | true =>
      rw [step_noTurn_busy hts hb, step_noTurn_busy htt (h.1.busy.trans hb)]
      exact h.engineTurn
    | false =>
      rw [step_noTurn_idle hts hb, step_noTurn_idle htt (h.1.busy.trans hb)]
      exact h.hostTurn

end

/-- A relation whose steps answer the same outcomes is kept by runs of every length. -/
theorem sameOutcome_run {R : State → State → Prop} (hR : ∀ s t, R s t → SameOutcome R (step s) (step t)) :
    ∀ (n : Nat) {s t : State}, R s t → SameOutcome R (run n s) (run n t)
  | 0, _, _, h     => h
  | n + 1, s, t, h => by
    have hst := hR s t h
    simp only [run]
    cases hs : step s with
    | fault f => cases f
    | next u =>
      cases ht : step t with
      | fault f => cases f
      | next v => rw [hs, ht] at hst; exact sameOutcome_run hR n hst
      | refused q => rw [hs, ht] at hst; exact hst.elim
    | refused r =>
      cases ht : step t with
      | fault f => cases f
      | next v => rw [hs, ht] at hst; exact hst.elim
      | refused q => rw [hs, ht] at hst; exact hst

/-- Settles O51: with BUSY = 0 states that agree on what is observed are `Alike`, and every step keeps them so. -/
theorem engineStateIsNotObservable : Obligations.EngineStateIsNotObservable :=
  fun n _ _ hb h => sameOutcome_run (R := Alike) (fun _ _ => Alike.step) n (h.alike_of_idle hb)

end Sys2Proof.Machine
end

section
/-! Proofs of the family 30_encoding: decoding and encoding are inverse (R63), exactly five CMD values are commands (R62),
and what writing any other value does (R56, R104).  All of them rest on what a value that decodes has in its fields. -/

namespace Sys2Proof.Machine

/-! ### The fields of a CMD value (R52) -/

/-- The three fields of R52 are all 64 bits of a CMD value. -/
theorem cmdReserved_append_cmdWsel_append_cmdOp (v : Word) : cmdReserved v ++ cmdWsel v ++ cmdOp v = v := by
  have hlow : cmdWsel v ++ cmdOp v = v.extractLsb' 0 6 :=
    BitVec.extractLsb'_append_extractLsb'_eq_extractLsb' rfl
  have hall : cmdReserved v ++ v.extractLsb' 0 6 = v.extractLsb' 0 64 :=
    BitVec.extractLsb'_append_extractLsb'_eq_extractLsb' rfl
  calc cmdReserved v ++ cmdWsel v ++ cmdOp v
      = cmdReserved v ++ (cmdWsel v ++ cmdOp v) := BitVec.append_assoc
    _ = v := by rw [hlow, hall, BitVec.extractLsb'_eq_self]

/-- The CMD value of a checked command has its WSEL above OP 0x2 (R54). -/
theorem encode_checkedOfWsel :
    ∀ wsel : BitVec 2, encode (checkedOfWsel wsel) = (0 : BitVec 58) ++ wsel ++ (2 : BitVec 4) := by decide

/-! ### Decoding (R51) -/

/-- What the fields of a value that decodes are: the tests of R51 that it passed. -/
theorem decode_ok_fields {v : Word} {i : Instr} (h : decode v = .ok i) :
    cmdReserved v = 0 ∧
      ((cmdOp v = 1 ∧ cmdWsel v = 0 ∧ i = .parseFast) ∨ (cmdOp v = 2 ∧ i = checkedOfWsel (cmdWsel v))) := by
  unfold decode at h
  split_ifs at h with hres hop hwsel hop2
  all_goals cases h
  · exact ⟨not_not.mp hres, .inl ⟨hop, hwsel, rfl⟩⟩
  · exact ⟨not_not.mp hres, .inr ⟨hop2, rfl⟩⟩

theorem decode_encode (i : Instr) : decode (encode i) = .ok i := by cases i <;> decide

theorem encode_of_decode_ok {v : Word} {i : Instr} (h : decode v = .ok i) : encode i = v := by
  rw [← cmdReserved_append_cmdWsel_append_cmdOp v]
  obtain ⟨hres, ⟨hop, hwsel, rfl⟩ | ⟨hop, rfl⟩⟩ := decode_ok_fields h
  · rw [hres, hop, hwsel]
    rfl
  · rw [hres, hop, encode_checkedOfWsel]

theorem decode_eq_ok_iff {v : Word} {i : Instr} : decode v = .ok i ↔ encode i = v :=
  ⟨encode_of_decode_ok, fun h => h ▸ decode_encode i⟩

/-- Decoding is total: a value that decodes to no command is BAD (R62). -/
theorem decode_error_of_not_ok {v : Word} (h : ∀ i, decode v ≠ .ok i) : ∃ e, decode v = .error e := by
  cases hd : decode v with
  | ok i => exact absurd hd (h i)
  | error e => exact ⟨e, rfl⟩

/-- The CMD values of the table of R54. -/
theorem exists_encode_eq_iff {v : Word} :
    (∃ i, encode i = v) ↔ v = 0x01 ∨ v = 0x02 ∨ v = 0x12 ∨ v = 0x22 ∨ v = 0x32 := by
  constructor
  · rintro ⟨i, rfl⟩
    cases i <;> decide
  · rintro (rfl | rfl | rfl | rfl | rfl)
    · exact ⟨.parseFast, rfl⟩
    · exact ⟨.parseChecked8, rfl⟩
    · exact ⟨.parseChecked16, rfl⟩
    · exact ⟨.parseChecked32, rfl⟩
    · exact ⟨.parseChecked64, rfl⟩

theorem exists_decode_ok_iff {v : Word} :
    (∃ i, decode v = .ok i) ↔ v = 0x01 ∨ v = 0x02 ∨ v = 0x12 ∨ v = 0x22 ∨ v = 0x32 := by
  simp only [decode_eq_ok_iff, exists_encode_eq_iff]

/-- Every field class that R56 lists is illegal: no value that decodes has such fields. -/
theorem decode_error_of_illegal_fields {v : Word}
    (h : cmdOp v = 0 ∨ 3 ≤ (cmdOp v).toNat ∨ (cmdOp v = 1 ∧ cmdWsel v ≠ 0) ∨ cmdReserved v ≠ 0) :
    ∃ e, decode v = .error e := by
  refine decode_error_of_not_ok fun i hd => ?_
  obtain ⟨hres, ⟨hop, hwsel, -⟩ | ⟨hop, -⟩⟩ := decode_ok_fields hd
  · simp [hres, hop, hwsel] at h
  · simp [hres, hop] at h

/-! ### The statements -/

/-- Settles O2: a value is its three fields, and those of a value that decodes to `i` are the fields of `encode i`. -/
theorem decodeAndEncodeAgree : Obligations.DecodeAndEncodeAgree :=
  ⟨⟨rfl, rfl, rfl, rfl, rfl⟩, decode_encode, fun _ _ => encode_of_decode_ok⟩

/-- Settles O3: the values that decode are the encodings. -/
theorem exactlyFiveValuesAreCommands : Obligations.ExactlyFiveValuesAreCommands :=
  fun _ => ⟨exists_decode_ok_iff, or_iff_not_imp_left.mpr fun h => decode_error_of_not_ok (not_exists.mp h)⟩

/-- Settles O4: the first two clauses are about `decode`; a write of CMD is `issueCommand` with BUSY = 0 and nothing with
BUSY = 1. -/
theorem illegalCommandValues : Obligations.IllegalCommandValues := by
  refine ⟨fun v h01 h02 h12 h22 h32 => ?_, fun _ => decode_error_of_illegal_fields, fun s v e hd hb => ?_,
    fun s v hb => writeReg_busy 0x00 v hb⟩
  · refine decode_error_of_not_ok fun i hd => ?_
    obtain h | h | h | h | h := exists_decode_ok_iff.mp ⟨i, hd⟩ <;> contradiction
  · rw [hostStep_write, writeReg_cmd_idle v hb]
    exact issueCommand_error s hd

end Sys2Proof.Machine
end

section
/-! Proofs of the family 40_checked_parser: the width constants (R65), the checked digit step (R67) and why its overflow
test is exact (R74), and the micro-step of the checked commands (R69) with its empty-input case (R76). -/

namespace Sys2Proof.Machine

/-- Settles O24: the WSEL column and the constants of R65's table are evaluated; each is a closed term. -/
theorem widthConstants : Obligations.WidthConstants := by
  unfold Obligations.WidthConstants
  decide

/-! ### The overflow test (R66, R74) -/

/-- `Accept_W` accepts a decimal digit exactly when the next accumulator stays within MAX_W, because MAX_W is
`DIV_W * 10 + MOD_W`.  The accumulator itself need not be within MAX_W. -/
theorem accepts_iff_le_maxW {w : Width} {acc d : Nat} (hd : d ≤ 9) :
    accepts w acc d = true ↔ acc * 10 + d ≤ maxW w := by
  have hmod := modW_lt w
  rw [accepts_iff, maxW_eq]
  omega

theorem accepts_false_of_maxW_lt {w : Width} {acc d : Nat} (hd : d ≤ 9) (h : maxW w < acc * 10 + d) :
    accepts w acc d = false :=
  Bool.eq_false_iff.mpr fun ha => Nat.not_lt.mpr ((accepts_iff_le_maxW hd).mp ha) h

/-! ### The checked digit step (R67) -/

section
variable {w : Width} {acc : Word} {b : Byte}

theorem checkedStep_nonDigit (hd : isDigit b = false) : checkedStep w acc b = .error .invalidCharacter := by
  simp [checkedStep, hd]

theorem checkedStep_rejected (hd : isDigit b = true) (ha : accepts w acc.toNat (digitValue b) = false) :
    checkedStep w acc b = .error .overflow := by simp [checkedStep, hd, ha]

theorem checkedStep_accepted (hd : isDigit b = true) (ha : accepts w acc.toNat (digitValue b) = true) :
    checkedStep w acc b = .ok (BitVec.ofNat 64 (acc.toNat * 10 + digitValue b)) := by simp [checkedStep, hd, ha]

/-- The arithmetic of an accepted digit is exact in 64 bits: `Accept_W` bounds it by MAX_W, and MAX_W fits (R74). -/
theorem toNat_accepted (hd : isDigit b = true) (ha : accepts w acc.toNat (digitValue b) = true) :
    (BitVec.ofNat 64 (acc.toNat * 10 + digitValue b)).toNat = acc.toNat * 10 + digitValue b := by
  have hle := (accepts_iff_le_maxW (digitValue_le hd)).mp ha
  rw [BitVec.toNat_ofNat, Nat.mod_eq_of_lt (hle.trans_lt (maxW_lt w))]

theorem toNat_accepted_le_maxW (hd : isDigit b = true) (ha : accepts w acc.toNat (digitValue b) = true) :
    (BitVec.ofNat 64 (acc.toNat * 10 + digitValue b)).toNat ≤ maxW w := by
  rw [toNat_accepted hd ha]
  exact (accepts_iff_le_maxW (digitValue_le hd)).mp ha

/-- Nothing that a checked digit step computes exceeds MAX_W (R74). -/
theorem checkedStep_ok_le_maxW {acc' : Word} (h : checkedStep w acc b = .ok acc') : acc'.toNat ≤ maxW w := by
  obtain ⟨-, he⟩ | ⟨-, -, he⟩ | ⟨hd, ha, hok⟩ := checkedStep_cases w acc b
  · rw [he] at h; cases h
  · rw [he] at h; cases h
  · rw [hok] at h; cases h
    exact toNat_accepted_le_maxW hd ha

end

/-- Settles O25: one equation for each way through `CheckedStep_W`; that an accepted digit's arithmetic does not wrap is
`toNat_accepted`. -/
theorem checkedDigitStep : Obligations.CheckedDigitStep :=
  fun _ _ _ => ⟨checkedStep_nonDigit, checkedStep_rejected, fun hd ha =>
    ⟨_, checkedStep_accepted hd ha, toNat_accepted hd ha, toNat_accepted_le_maxW hd ha⟩⟩

/-- Settles O26: each case of R74 is linear arithmetic from `maxW_eq` and the bound on MOD_W. -/
theorem acceptIsExact : Obligations.AcceptIsExact := by
  refine ⟨fun w acc d _ hd => ?_, fun _ _ _ _ => checkedStep_ok_le_maxW, fun w => Nat.le_pred_of_lt (maxW_lt w)⟩
  have hmax := maxW_eq w
  have hmod := modW_lt w
  refine ⟨accepts_iff_le_maxW hd, fun hbelow => ?_, fun hat => ?_, fun habove => ?_⟩ <;> omega

/-! ### The micro-step of the checked commands (R69) -/

/-- At BUSY = 1 the running checked command's step is its micro-step. -/
theorem exec_checkedInstr_running {w : Width} {s : State} (hb : s.busy = true) (hr : s.running = checkedInstr w) :
    exec (checkedInstr w) s = checkedMicroStep w s := by
  rw [exec_checkedInstr, commandStep_running hb hr]

/-- Settles O27: a FINISH or a DIGIT micro-step, and the DIGIT ones by what the byte is and what its digit step answers. -/
theorem checkedMicroStep_of_running : Obligations.CheckedMicroStep := by
  intro w s hb hr
  rw [exec_checkedInstr_running hb hr]
  refine ⟨checkedMicroStep_finish, checkedMicroStep_unreadable, ?_⟩
  rintro _ hidx hk rfl
  refine ⟨fun hd => ?nonDigit, fun hd hlt => ?overflow, fun hd hle => ?accepted⟩
  case nonDigit => exact checkedMicroStep_error hidx hk (checkedStep_nonDigit hd)
  case overflow =>
    have ha := accepts_false_of_maxW_lt (digitValue_le hd) hlt
    exact checkedMicroStep_error hidx hk (checkedStep_rejected hd ha)
  case accepted =>
    have ha := (accepts_iff_le_maxW (digitValue_le hd)).mpr hle
    exact checkedMicroStep_ok hidx hk (checkedStep_accepted hd ha)

/-- Settles O30: the issue latches LEN = 0 and clears IDX and ACC, so the first micro-step is FINISH with ACC = 0. -/
theorem emptyInputParsesToZero : Obligations.EmptyInputParsesToZero := by
  intro w s hb hlen
  have hfinish : engineTurn (s.startChecked w) = .next ((s.startChecked w).finish .none 0) := by
    rw [engineTurn_checked rfl rfl]
    exact checkedMicroStep_finish hlen.symm
  exact ⟨_, _, exec_checkedInstr_idle w hb, hfinish, rfl, rfl, rfl, rfl⟩

end Sys2Proof.Machine
end

section
/-! Proofs of the family 41_fast_parser: the unchecked digit step (R88), and the two codes a fast command can end with
(R97). -/

namespace Sys2Proof.Machine

/-! ### The unchecked digit step (R88) -/

/-- `FastStep` on any byte: the byte is added before 0x30 is taken away, and the sum wraps below 0x30 and at 2^64. -/
theorem fastStep_toNat (acc : Word) (b : Byte) :
    (fastStep acc b).toNat = (acc.toNat * 10 + b.toNat + 2 ^ 64 - 0x30) % 2 ^ 64 := by
  simp only [fastStep, zext64, BitVec.toNat_sub, BitVec.toNat_add, BitVec.toNat_mul, BitVec.toNat_setWidth,
    BitVec.toNat_ofNat]
  omega

/-- On a digit the bias is taken from the byte itself, so only the sum wraps. -/
theorem fastStep_toNat_of_isDigit (acc : Word) {b : Byte} (hd : isDigit b = true) :
    (fastStep acc b).toNat = (acc.toNat * 10 + digitValue b) % 2 ^ 64 := by
  obtain ⟨hlow, -⟩ := isDigit_iff.mp hd
  have hsum : acc.toNat * 10 + b.toNat + 2 ^ 64 - 0x30 = acc.toNat * 10 + digitValue b + 2 ^ 64 := by
    unfold digitValue
    omega
  rw [fastStep_toNat, hsum, Nat.add_mod_right]

/-- Settles O34: on any byte by the arithmetic of 64-bit words, and on a digit because its byte is at least 0x30. -/
theorem uncheckedDigitStep : Obligations.UncheckedDigitStep :=
  fun acc b => ⟨fastStep_toNat acc b, fastStep_toNat_of_isDigit acc⟩

/-! ### The codes of a fast command (R97) -/

/-- At BUSY = 1 the running fast command's step is its micro-step. -/
theorem exec_parseFast_running {s : State} (hb : s.busy = true) (hm : s.mode = .fast) :
    exec .parseFast s = fastMicroStep s := by
  rw [exec_parseFast, commandStep_running hb (State.running_fast hm)]

/-- A fast micro-step either leaves BUSY as it is or ends the command with one of two codes, whatever the input. -/
theorem fastMicroStep_busy_or_err {s t : State} (h : fastMicroStep s = .next t) :
    t.busy = s.busy ∨ t.err = .none ∨ t.err = .busError := by
  obtain ⟨e, v, rfl, rfl | ⟨rfl, -⟩⟩ | ⟨v, rfl⟩ | ⟨acc, idx, bs, rfl⟩ := fastMicroStep_next h
  · exact .inr (.inl rfl)
  · exact .inr (.inr rfl)
  · exact .inr (.inl rfl)
  · exact .inl rfl

/-- Settles O41: a micro-step that ends the command changes BUSY, so it is one of those that write NONE or BUS_ERROR. -/
theorem fastNeverRaisesParseErrors : Obligations.FastNeverRaisesParseErrors := by
  intro s t hb hm h hend
  rw [exec_parseFast_running hb hm] at h
  obtain hbusy | herr := fastMicroStep_busy_or_err h
  · rw [hend, hb] at hbusy
    cases hbusy
  · exact herr

end Sys2Proof.Machine
end

section
/-! Proofs of the family 60_exceptions: every completion code other than NONE leaves RESULT 0 (R103). -/

namespace Sys2Proof.Machine

/-! ### RESULT at the end of a command (R103) -/

/-- A fast micro-step that ends the command with an error is the BUS_ERROR finish, whose value is 0 (R91). -/
theorem fastMicroStep_result_of_err {s t : State} (h : fastMicroStep s = .next t) (hend : t.busy ≠ s.busy)
    (herr : t.err ≠ .none) : t.result = 0 := by
  obtain ⟨e, v, rfl, rfl | ⟨-, rfl⟩⟩ | ⟨v, rfl⟩ | ⟨acc, idx, bs, rfl⟩ := fastMicroStep_next h
  · exact absurd rfl herr
  · rfl
  · exact absurd rfl herr
  · exact absurd rfl hend

/-- A checked micro-step that ends the command with an error is one of the finishes whose value is 0 (R69). -/
theorem checkedMicroStep_result_of_err {w : Width} {s t : State} (h : checkedMicroStep w s = .next t)
    (hend : t.busy ≠ s.busy) (herr : t.err ≠ .none) : t.result = 0 := by
  obtain ⟨e, v, rfl, ⟨rfl, -⟩ | ⟨-, rfl⟩⟩ | ⟨acc, idx, bs, rfl⟩ := checkedMicroStep_next h
  · exact absurd rfl herr
  · rfl
  · exact absurd rfl hend

/-- The issue of a command never ends it, not even on an empty input (R26). -/
theorem exec_idle_busy {i : Instr} {s t : State} (hb : s.busy = false) (h : exec i s = .next t) : t.busy = true := by
  obtain rfl | ⟨w, rfl⟩ := instr_cases i
  · rw [exec_parseFast_idle hb] at h
    cases h
    rfl
  · rw [exec_checkedInstr_idle w hb] at h
    cases h
    rfl

/-- Settles O42: a step that ends the running command is a micro-step of its family; a CMD write that ends at once decodes
to no command, so it is the BAD_COMMAND finish. -/
theorem errorsLeaveResultZero : Obligations.ErrorsLeaveResultZero := by
  refine ⟨fun i s t hb h hend herr => ?microStep, fun s t v hb h hend => ?cmdWrite⟩
  case microStep =>
    have hchange : t.busy ≠ s.busy := by simp [hend, hb]
    obtain ⟨hidle, -⟩ | ⟨-, -, rfl⟩ | ⟨-, -, -, hfast⟩ | ⟨-, -, -, hchecked⟩ := exec_next h
    · simp [hidle] at hb
    · exact absurd rfl hchange
    · exact fastMicroStep_result_of_err hfast hchange herr
    · exact checkedMicroStep_result_of_err hchecked hchange herr
  case cmdWrite =>
    rw [hostStep_write, writeReg_cmd_idle v hb] at h
    cases hd : decode v with
    | ok i =>
      rw [issueCommand_ok s hd] at h
      simp [exec_idle_busy hb h] at hend
    | error e =>
      rw [issueCommand_error s hd] at h
      cases h
      rfl

end Sys2Proof.Machine
end

section
/-! Proofs about the chunk word: its byte lanes (R36 to R38), the lane law of the SWAR chunk processor (R84, R85), the
digit-only law of the fast datapath (R93), and the contract that it is meant for (R90). -/

namespace Sys2Proof.Machine

/-! ### Lanes (R7) -/

/-- The number whose lanes of `m` bits are `d 0` to `d (n - 1)`, the lowest first. -/
def laneSum (m n : Nat) (d : Nat → Nat) : Nat := ((List.range n).map d).foldr (fun x v => x + 2 ^ m * v) 0

/-- Lane `k` of a word whose number is made of lanes that fit. -/
theorem extract_of_laneSum {m n k : Nat} {d : Nat → Nat} {w : Word} (hw : w.toNat = laneSum m n d)
    (hd : ∀ j, j < n → d j < 2 ^ m) (hk : k < n) : (w.extractLsb' (m * k) m).toNat = d k := by
  have hlane := lane_of_foldr m ((List.range n).map d) (by simpa using hd) k (by simpa using hk)
  rw [BitVec.extractLsb'_toNat, hw, Nat.shiftRight_eq_div_pow]
  simpa [laneSum] using hlane

/-- The bytes of a chunk are the lanes of its word. -/
theorem leWord_toNat_eq_laneSum {bs : List Byte} {n : Nat} {d : Nat → Nat} (hlen : bs.length = n) (hn : n ≤ 8)
    (hd : ∀ k b, bs[k]? = some b → d k = b.toNat) : (leWord bs).toNat = laneSum 8 n d := by
  subst hlen
  have hmap : (List.range bs.length).map d = bs.map BitVec.toNat := by
    refine List.ext_getElem (by simp) fun k _ hk => ?_
    have hk : k < bs.length := by simpa using hk
    simpa using hd k bs[k] (List.getElem?_eq_getElem hk)
  rw [(leWord_toNat bs hn).1, laneSum, hmap, List.foldr_map]
  rfl

theorem byteLane_leWord {bs : List Byte} {k : Nat} {b : Byte} (hlen : bs.length ≤ 8) (hb : bs[k]? = some b) :
    byteLane (leWord bs) k = b := by
  have hd : ∀ k b, bs[k]? = some b → (bs.getD k 0).toNat = b.toNat := fun k b h => by simp [List.getD, h]
  have hk : k < bs.length := (List.getElem?_eq_some_iff.mp hb).1
  refine BitVec.eq_of_toNat_eq ?_
  rw [byteLane, extract_of_laneSum (leWord_toNat_eq_laneSum rfl hlen hd) (fun j _ => (bs.getD j 0).isLt) hk]
  exact hd k b hb

/-- Settles O20: the chunk is the eight bytes in a row, and byte `k` of it is lane `k` of its word. -/
theorem chunkReadIsLittleEndian : Obligations.ChunkReadIsLittleEndian := by
  intro s a hord
  refine ⟨bytesFrom s.mem a 8, s.readBytes_ordinary 8 a hord, fun k hk => ?_⟩
  have hlane : byteLane (leWord (bytesFrom s.mem a 8)) k = s.mem.read (addrAt a k) :=
    byteLane_leWord (by simp) (getElem?_bytesFrom s.mem a hk)
  exact ⟨by rw [hlane, State.memRead_ordinary (hord k hk)], hlane⟩

/-! ### The four operations of the SWAR chunk processor on digits (R80 to R83)

Each takes lanes that hold decimal numbers to lanes that hold the numbers of one more power of two of digits.  No lane
carries into the one above it, because the product and the sum of two neighbours stay below the lane's size. -/

section
variable {d : Nat → Nat} {w : Word}

theorem laneSum_two (m : Nat) (f : Nat → Nat) : laneSum m 2 f = f 0 + 2 ^ m * (f 1 + 2 ^ m * 0) := rfl

/-- The four lanes of two bytes, in Horner's form. -/
theorem laneSum_four (m : Nat) (e : Nat → Nat) :
    laneSum m 4 e = e 0 + 2 ^ m * (e 1 + 2 ^ m * (e 2 + 2 ^ m * (e 3 + 2 ^ m * 0))) := rfl

/-- The eight lanes of a byte, in Horner's form. -/
theorem laneSum_eight (m : Nat) (d : Nat → Nat) :
    laneSum m 8 d = d 0 + 2 ^ m * (d 1 + 2 ^ m * (d 2 + 2 ^ m * (d 3 + 2 ^ m * (d 4 + 2 ^ m * (d 5 +
      2 ^ m * (d 6 + 2 ^ m * (d 7 + 2 ^ m * 0))))))) := rfl

/-- A word weighted and added to itself one lane down, where nothing is carried out of its top lane. -/
theorem toNat_mul_add_ushiftRight {m c x high : Nat} (hw : w.toNat = x + 2 ^ m * high) (hx : x < 2 ^ m)
    (hfit : w.toNat * c + high < 2 ^ 64) (hc : c < 2 ^ 64) :
    (w * BitVec.ofNat 64 c + w >>> m).toNat = w.toNat * c + high := by
  have hshift : w.toNat >>> m = high := by
    rw [Nat.shiftRight_eq_div_pow, hw, Nat.add_mul_div_left _ _ (Nat.two_pow_pos m), Nat.div_eq_of_lt hx, Nat.zero_add]
  rw [BitVec.toNat_add, BitVec.toNat_mul, BitVec.toNat_ushiftRight, BitVec.toNat_ofNat, Nat.mod_eq_of_lt hc, hshift,
    Nat.mod_add_mod, Nat.mod_eq_of_lt hfit]

/-- The bias subtraction borrows from no lane, because every digit byte is at least 0x30. -/
theorem swarBias_lanes (hw : w.toNat = laneSum 8 8 fun k => d k + 0x30) : (swarBias w).toNat = laneSum 8 8 d := by
  have hsum : w.toNat = laneSum 8 8 d + bias64.toNat := by
    rw [hw, laneSum_eight, laneSum_eight, show bias64.toNat = 0x3030303030303030 from rfl]
    ring
  rw [swarBias, BitVec.toNat_sub_of_le (BitVec.le_def.mpr (by omega)), hsum, Nat.add_sub_cancel]

theorem swarStage1_lanes (hw : w.toNat = laneSum 8 8 d) (hd : ∀ k, k < 8 → d k ≤ 9) :
    (swarStage1 w).toNat = laneSum 16 4 fun j => 10 * d (2 * j) + d (2 * j + 1) := by
  have h0 := hd 0 (by norm_num); have h1 := hd 1 (by norm_num); have h2 := hd 2 (by norm_num)
  have h3 := hd 3 (by norm_num); have h4 := hd 4 (by norm_num); have h5 := hd 5 (by norm_num)
  have h6 := hd 6 (by norm_num); have h7 := hd 7 (by norm_num)
  rw [laneSum_eight] at hw
  have hsum := toNat_mul_add_ushiftRight (c := 10) hw (by omega) (by omega) (by norm_num)
  have hmask := stage1_mask (10 * d 0 + d 1) (10 * d 1 + d 2) (10 * d 2 + d 3) (10 * d 3 + d 4) (10 * d 4 + d 5)
    (10 * d 5 + d 6) (10 * d 6 + d 7) (10 * d 7) (by omega) (by omega) (by omega) (by omega) (by omega) (by omega)
    (by omega)
  rw [swarStage1, BitVec.toNat_and, hsum, hw]
  convert hmask using 2
  · ring
  · rfl
  · rw [laneSum_four]; simp only [Nat.mul_zero, Nat.zero_add, Nat.reduceMul, Nat.reduceAdd]; ring

theorem swarStage2_lanes {e : Nat → Nat} (hw : w.toNat = laneSum 16 4 e) (he : ∀ j, j < 4 → e j ≤ 99) :
    (swarStage2 w).toNat = laneSum 32 2 fun i => 100 * e (2 * i) + e (2 * i + 1) := by
  have h0 := he 0 (by norm_num); have h1 := he 1 (by norm_num)
  have h2 := he 2 (by norm_num); have h3 := he 3 (by norm_num)
  rw [laneSum_four] at hw
  have hsum := toNat_mul_add_ushiftRight (c := 100) hw (by omega) (by omega) (by norm_num)
  have hmask := stage2_mask (100 * e 0 + e 1) (100 * e 1 + e 2) (100 * e 2 + e 3) (100 * e 3) (by omega) (by omega)
    (by omega)
  rw [swarStage2, BitVec.toNat_and, hsum, hw]
  convert hmask using 2
  · ring
  · rfl
  · rw [laneSum_two]; simp only [Nat.mul_zero, Nat.zero_add, Nat.reduceMul, Nat.reduceAdd]; ring

theorem swarStage3_lanes {f : Nat → Nat} (hw : w.toNat = laneSum 32 2 f) (hf : ∀ i, i < 2 → f i ≤ 9999) :
    (swarStage3 w).toNat = 10000 * f 0 + f 1 := by
  have h0 := hf 0 (by norm_num); have h1 := hf 1 (by norm_num)
  rw [laneSum_two] at hw
  have hsum := toNat_mul_add_ushiftRight (c := 10000) hw (by omega) (by omega) (by norm_num)
  have hmask : (0x00000000FFFFFFFF#64).toNat = 2 ^ 32 - 1 := rfl
  rw [swarStage3, BitVec.toNat_and, hsum, hmask, Nat.and_two_pow_sub_one_eq_mod]
  omega

end

/-- The value of eight bytes, their digits paired as the three stages pair them. -/
theorem value_of_length_eight {bs : List Byte} {d : Nat → Nat} (hlen : bs.length = 8)
    (hd : ∀ k b, bs[k]? = some b → d k = digitValue b) :
    value bs = 10000 * (100 * (10 * d 0 + d 1) + (10 * d 2 + d 3)) + (100 * (10 * d 4 + d 5) + (10 * d 6 + d 7)) := by
  match bs, hlen with
  | [b0, b1, b2, b3, b4, b5, b6, b7], _ =>
    rw [hd 0 b0 rfl, hd 1 b1 rfl, hd 2 b2 rfl, hd 3 b3 rfl, hd 4 b4 rfl, hd 5 b5 rfl, hd 6 b6 rfl, hd 7 b7 rfl]
    simp only [value, List.foldl]
    ring

/-- Settles O32: the bytes of the word are digits above the bias, and each stage joins the lanes of the one before. -/
theorem swarLaneLaw : Obligations.SwarLaneLaw := by
  intro bs d hlen hdig hd
  have hdigit : ∀ k b, bs[k]? = some b → isDigit b = true := fun k b hb =>
    List.all_eq_true.mp hdig b (List.mem_of_getElem? hb)
  have hd9 : ∀ k, k < 8 → d k ≤ 9 := fun k hk => by
    have hb := List.getElem?_eq_getElem (l := bs) (hlen.symm ▸ hk)
    exact hd k _ hb ▸ digitValue_le (hdigit k _ hb)
  have hword : (leWord bs).toNat = laneSum 8 8 fun k => d k + 0x30 := by
    refine leWord_toNat_eq_laneSum hlen le_rfl fun k b hb => ?_
    have := isDigit_iff.mp (hdigit k b hb)
    rw [hd k b hb, digitValue]
    omega
  have he99 : ∀ j, j < 4 → 10 * d (2 * j) + d (2 * j + 1) ≤ 99 := fun j hj => by
    have h0 := hd9 (2 * j) (by omega)
    have h1 := hd9 (2 * j + 1) (by omega)
    omega
  have hf9999 : ∀ i, i < 2 → 100 * (10 * d (2 * (2 * i)) + d (2 * (2 * i) + 1)) +
      (10 * d (2 * (2 * i + 1)) + d (2 * (2 * i + 1) + 1)) ≤ 9999 := fun i hi => by
    have h0 := he99 (2 * i) (by omega)
    have h1 := he99 (2 * i + 1) (by omega)
    omega
  have hbias := swarBias_lanes hword
  have hstage1 := swarStage1_lanes hbias hd9
  have hstage2 := swarStage2_lanes hstage1 he99
  have hstage3 := swarStage3_lanes hstage2 hf9999
  have hvalue := value_of_length_eight hlen hd
  refine ⟨fun k hk => ?_, fun j hj => ?_, fun i hi => ?_, ?_, ?_⟩
  · exact extract_of_laneSum hbias (fun k hk => (hd9 k hk).trans_lt (by norm_num)) hk
  · exact extract_of_laneSum hstage1 (fun j hj => (he99 j hj).trans_lt (by norm_num)) hj
  · rw [extract_of_laneSum hstage2 (fun i hi => (hf9999 i hi).trans_lt (by norm_num)) hi,
      show 2 * (2 * i) = 4 * i by omega, show 2 * (2 * i + 1) = 4 * i + 2 by omega]
  · exact hstage3.trans hvalue.symm
  · rw [hvalue]
    have h0 := hf9999 0
    have h1 := hf9999 1
    simp only [Nat.reduceMul, Nat.reduceAdd] at h0 h1
    omega

/-- Settles O33: the last stage masks the high half away, whatever the word. -/
theorem swarResultFitsThirtyTwoBits : Obligations.SwarResultFitsThirtyTwoBits := by
  intro w
  have hhigh : ∀ c2 : Word, (swarStage3 c2).extractLsb' 32 32 = 0 := fun c2 => by
    rw [swarStage3, BitVec.extractLsb'_and,
      show (0x00000000FFFFFFFF#64).extractLsb' 32 32 = 0#32 by decide, BitVec.and_zero]
    rfl
  exact hhigh _

/-! ### The datapath of a fast command on digits (R93) -/

theorem swarCollapse_toNat {bs : List Byte} (hlen : bs.length = 8) (hdig : bs.all isDigit = true) :
    (swarCollapse (leWord bs)).toNat = value bs ∧ value bs ≤ 99999999 := by
  have hd : ∀ k b, bs[k]? = some b → digitValue (bs.getD k 0) = digitValue b := fun k b h => by simp [List.getD, h]
  obtain ⟨-, -, -, hvalue, hle⟩ := swarLaneLaw bs _ hlen hdig hd
  exact ⟨hvalue, hle⟩

theorem narrow32_toNat (acc : Word) : (narrow32 acc).toNat = acc.toNat % 2 ^ 32 := by
  simp only [narrow32, zext64, BitVec.toNat_setWidth, BitVec.extractLsb'_toNat]
  omega

/-- The fast datapath takes one byte more, where it has no chunk still to come: eight bytes are one chunk, not eight
digits. -/
theorem fastDatapath_snoc {bs : List Byte} (b : Byte) (hlen : bs.length ≠ 7) :
    fastDatapath (bs ++ [b]) = fastStep (fastDatapath bs) b := by
  have hshort : 8 ≤ (bs ++ [b]).length ↔ 8 ≤ bs.length := by
    rw [List.length_append, List.length_singleton]
    omega
  unfold fastDatapath
  by_cases h8 : 8 ≤ bs.length
  · rw [if_pos (hshort.mpr h8), if_pos h8, List.drop_append_of_le_length h8, List.take_append_of_le_length h8,
      List.foldl_append]
    rfl
  · rw [if_neg (mt hshort.mp h8), if_neg h8, List.foldl_append]
    rfl

theorem fastDatapath_of_length_eight {bs : List Byte} (hlen : bs.length = 8) :
    fastDatapath bs = swarCollapse (leWord bs) := by
  rw [fastDatapath, if_pos hlen.ge, List.drop_eq_nil_of_le hlen.le, List.take_of_length_le hlen.le]
  rfl

theorem all_isDigit_snoc {bs : List Byte} {b : Byte} :
    (bs ++ [b]).all isDigit = true ↔ bs.all isDigit = true ∧ isDigit b = true := by
  rw [List.all_append, Bool.and_eq_true, List.all_cons, List.all_nil, Bool.and_true]

/-- By induction from the end of the input: eight bytes are the chunk, and any other last byte is one digit step. -/
theorem fastDatapath_toNat : ∀ (bs : List Byte), bs.all isDigit = true →
    (fastDatapath bs).toNat = value bs % 2 ^ 64 := by
  intro bs
  induction bs using List.reverseRecOn with
  | nil => exact fun _ => rfl
  | append_singleton bs b ih =>
    intro hdig
    by_cases hlen : bs.length = 7
    · have h8 : (bs ++ [b]).length = 8 := by simp [hlen]
      obtain ⟨hvalue, hle⟩ := swarCollapse_toNat h8 hdig
      rw [fastDatapath_of_length_eight h8, hvalue]
      omega
    · obtain ⟨hdigs, hd⟩ := all_isDigit_snoc.mp hdig
      rw [fastDatapath_snoc b hlen, fastStep_toNat_of_isDigit _ hd, ih hdigs, value_snoc]
      omega

theorem narrow32_fastDatapath_toNat {bs : List Byte} (hdig : bs.all isDigit = true) :
    (narrow32 (fastDatapath bs)).toNat = value bs % 2 ^ 32 := by
  rw [narrow32_toNat, fastDatapath_toNat bs hdig]
  omega

/-- Settles O39: ACC by induction over the input (`fastDatapath_toNat`), and the result is its low half. -/
theorem digitOnlyLaw : Obligations.DigitOnlyLaw := fun bs hdig =>
  ⟨fastDatapath_toNat bs hdig, narrow32_fastDatapath_toNat hdig, fun hlt => by
    rw [narrow32_fastDatapath_toNat hdig, Nat.mod_eq_of_lt hlt]⟩

theorem contractOk_iff {bs : List Byte} :
    contractOk bs = true ↔ 1 ≤ bs.length ∧ (∀ b ∈ bs, isDigit b = true) ∧ value bs < 2 ^ 32 := by
  simp only [contractOk, Bool.and_eq_true, decide_eq_true_eq, List.all_eq_true, and_assoc]

/-- Settles O37: the three tests of `contractOk`. -/
theorem fastContract : Obligations.FastContract := fun _ => contractOk_iff

end Sys2Proof.Machine
end

section
/-! Proofs about one Engine turn: the micro-steps of the fast command (R90, R91), reads that do not complete (R43, R106),
and what a micro-step of any command leaves unchanged (R27, R28). -/

namespace Sys2Proof.Machine

/-! ### The micro-steps of the fast command (R90, R91) -/

section
variable {s : State}

theorem fastChunk_ordinary (h : ∀ k, k < 8 → s.kindAt (addrAt s.base k) = .ordinary) :
    fastChunk s = .next (s.advance (swarCollapse (leWord (bytesFrom s.mem s.base 8))) 8 (bytesFrom s.mem s.base 8)) := by
  obtain ⟨-, hc⟩ | ⟨⟨k, hk, hu⟩, -⟩ | ⟨k, hk, hd, -⟩ := fastChunk_cases s
  · exact hc
  · simp [h k hk] at hu
  · simp [h k hk] at hd

theorem fastChunk_unreadable (h : ∃ k, k < 8 ∧ s.kindAt (addrAt s.base k) = .unreadable)
    (hdev : ∀ k, k < 8 → s.kindAt (addrAt s.base k) ≠ .device) : fastChunk s = .next (s.finish .busError 0) := by
  obtain ⟨j, hj, hu⟩ := h
  obtain ⟨ho, -⟩ | ⟨-, -, hc⟩ | ⟨k, hk, hd, -⟩ := fastChunk_cases s
  · simp [ho j hj] at hu
  · exact hc
  · exact absurd hd (hdev k hk)

theorem fastChunk_device (h : ∃ k, k < 8 ∧ s.kindAt (addrAt s.base k) = .device) :
    ∃ a, s.kindAt a = .device ∧ fastChunk s = .refused (.deviceRead a) := by
  obtain ⟨j, hj, hd⟩ := h
  obtain ⟨ho, -⟩ | ⟨-, hn, -⟩ | ⟨k, -, hk, hc⟩ := fastChunk_cases s
  · simp [ho j hj] at hd
  · exact absurd hd (hn j hj)
  · exact ⟨_, hk, hc⟩

theorem fastDigit_ordinary (h : s.kindAt (s.inputAddr s.idx) = .ordinary) :
    fastDigit s = .next (s.advance
      (fastStep s.acc (s.mem.read (s.inputAddr s.idx))) (s.idx + 1) [s.mem.read (s.inputAddr s.idx)]) := by
  simp [fastDigit, State.memRead_ordinary h]

theorem fastDigit_unreadable (h : s.kindAt (s.inputAddr s.idx) = .unreadable) :
    fastDigit s = .next (s.finish .busError 0) := by simp [fastDigit, State.memRead_unreadable h]

theorem fastDigit_device (h : s.kindAt (s.inputAddr s.idx) = .device) :
    fastDigit s = .refused (.deviceRead (s.inputAddr s.idx)) := by simp [fastDigit, State.memRead_device h]

/-- The datapath value is the result, unless a free draw is allowed (R90). -/
theorem fastFinish_datapath (h : s.params.fastContractOnly = false ∨ contractOk s.consumed = true) :
    fastFinish s = s.finish .none (narrow32 s.acc) := by
  obtain ⟨-, hf⟩ | ⟨⟨hc, hp⟩, -⟩ := fastFinish_cases s
  · exact hf
  · simp [hc, hp] at h

theorem fastFinish_draw (hp : s.params.fastContractOnly = true) (hc : contractOk s.consumed = false) :
    fastFinish s = { s.finish .none (zext64 (Config.draw32 s.draws)) with draws := s.draws + 1 } := by
  obtain ⟨hn, -⟩ | ⟨-, hf⟩ := fastFinish_cases s
  · exact absurd ⟨hc, hp⟩ hn
  · exact hf

/-- A read that is not `memReadable` meets an unreadable address (R6). -/
theorem State.memReadable_eq_false {a : Addr} : s.memReadable a = false ↔ s.kindAt a = .unreadable := by
  simp [State.memReadable]

end

/-- Settles O35: CHUNK at IDX = 0 with eight bytes to come, DIGIT elsewhere before the end, each by what its read meets. -/
theorem fastMicroStep_of_running : Obligations.FastMicroStep := by
  intro s hb hm
  rw [exec_parseFast_running hb hm]
  refine ⟨fun h0 h8 => ?chunk, fun hn hlt => ?digit⟩
  case chunk =>
    rw [fastMicroStep_chunk h0 h8]
    exact ⟨fastChunk_ordinary, fastChunk_unreadable⟩
  case digit =>
    rw [fastMicroStep_digit hn hlt]
    exact ⟨fastDigit_ordinary, fastDigit_unreadable⟩

/-- Settles O36: with no byte left the micro-step is FINISH, in the two forms of R90. -/
theorem fastFinish_of_running : Obligations.FastFinish := by
  intro s hb hm hle
  rw [exec_parseFast_running hb hm, fastMicroStep_finish hle]
  exact ⟨fun h => by rw [fastFinish_datapath h]; rfl, fun hp hc => by rw [fastFinish_draw hp hc]; rfl⟩

/-- Settles O43: the unreadable case of the checked DIGIT, the fast DIGIT and the CHUNK. -/
theorem unreadableByteEndsWithBusError : Obligations.UnreadableByteEndsWithBusError := by
  intro s hb
  simp only [State.memReadable_eq_false]
  refine ⟨fun hm hidx hu => ?_, fun hm hn hlt hu => ?_, fun k hm h0 h8 hk hu hdev => ?_⟩
  · rw [engineTurn_checked hb hm]
    exact checkedMicroStep_unreadable hidx hu
  · rw [engineTurn_fast hb hm, fastMicroStep_digit hn hlt]
    exact fastDigit_unreadable hu
  · rw [engineTurn_fast hb hm, fastMicroStep_chunk h0 h8]
    exact fastChunk_unreadable ⟨k, hk, hu⟩ hdev

/-- Settles O44: the device case of the checked DIGIT, the fast DIGIT and the CHUNK. -/
theorem deviceReadsAreRefused : Obligations.DeviceReadsAreRefused := by
  intro s hb
  refine ⟨fun hm hidx hd => ?_, fun hm hn hlt hd => ?_, fun hm h0 h8 hd => ?_⟩
  · rw [engineTurn_checked hb hm]
    exact checkedMicroStep_device hidx hd
  · rw [engineTurn_fast hb hm, fastMicroStep_digit hn hlt]
    exact fastDigit_device hd
  · rw [engineTurn_fast hb hm, fastMicroStep_chunk h0 h8]
    exact fastChunk_device hd

/-! ### What a micro-step writes (R27, R28) -/

/-- `t` is what a micro-step of `s` can leave: the end of the command, with or without a draw, or a move of ACC, IDX and the
bytes consumed.  Every other field is as in `s`. -/
def MicroStepped (s t : State) : Prop :=
  (∃ e v n, t = { s.finish e v with draws := n }) ∨ ∃ acc idx bs, t = s.advance acc idx bs

section
variable {s t : State}

theorem fastMicroStep_microStepped (h : fastMicroStep s = .next t) : MicroStepped s t := by
  obtain ⟨e, v, rfl, -⟩ | ⟨v, rfl⟩ | ⟨acc, idx, bs, rfl⟩ := fastMicroStep_next h
  · exact .inl ⟨e, v, s.draws, rfl⟩
  · exact .inl ⟨_, _, _, rfl⟩
  · exact .inr ⟨acc, idx, bs, rfl⟩

theorem checkedMicroStep_microStepped {w : Width} (h : checkedMicroStep w s = .next t) : MicroStepped s t := by
  obtain ⟨e, v, rfl, -⟩ | ⟨acc, idx, bs, rfl⟩ := checkedMicroStep_next h
  · exact .inl ⟨e, v, s.draws, rfl⟩
  · exact .inr ⟨acc, idx, bs, rfl⟩

theorem engineTurn_microStepped (hb : s.busy = true) (h : engineTurn s = .next t) : MicroStepped s t := by
  cases hm : s.mode with
  | fast => rw [engineTurn_fast hb hm] at h; exact fastMicroStep_microStepped h
  | checked => rw [engineTurn_checked hb hm] at h; exact checkedMicroStep_microStepped h

/-- What an Engine turn leaves of the Host's registers, the platform and the Host, whether or not a command runs (R28). -/
theorem engineTurn_frame (h : engineTurn s = .next t) :
    t.srcAddr = s.srcAddr ∧ t.srcLen = s.srcLen ∧ t.mem = s.mem ∧ t.params = s.params ∧ t.host = s.host ∧
      t.turns = s.turns ∧ t.reads = s.reads := by
  cases hb : s.busy with
  | false =>
    rw [engineTurn_idle hb] at h
    cases h
    exact ⟨rfl, rfl, rfl, rfl, rfl, rfl, rfl⟩
  | true =>
    obtain ⟨e, v, n, rfl⟩ | ⟨acc, idx, bs, rfl⟩ := engineTurn_microStepped hb h
    · exact ⟨rfl, rfl, rfl, rfl, rfl, rfl, rfl⟩
    · exact ⟨rfl, rfl, rfl, rfl, rfl, rfl, rfl⟩

end

theorem engineTurn_running {s : State} (hb : s.busy = true) : engineTurn s = exec s.running s := by simp [engineTurn, hb]

/-- Settles O8: the Engine's turn is the micro-step of MODE, and a micro-step that leaves BUSY as it was is an advance. -/
theorem engineStepsExactlyWhenBusy : Obligations.EngineStepsExactlyWhenBusy := by
  refine fun s => ⟨engineTurn_idle, engineTurn_running, engineTurn_fast, engineTurn_checked, fun t h => ?_⟩
  obtain ⟨hsrcAddr, hsrcLen, hmem, -⟩ := engineTurn_frame h
  refine ⟨hsrcAddr, hsrcLen, hmem, fun hbt => ?goesOn, fun hb hbt => ?ends⟩
  case goesOn =>
    cases hb : s.busy with
    | false =>
      rw [engineTurn_idle hb] at h
      cases h
      exact ⟨rfl, rfl, rfl⟩
    | true =>
      obtain ⟨e, v, n, rfl⟩ | ⟨acc, idx, bs, rfl⟩ := engineTurn_microStepped hb h
      · cases hbt
      · exact ⟨rfl, rfl, rfl⟩
  case ends =>
    obtain ⟨e, v, n, rfl⟩ | ⟨acc, idx, bs, rfl⟩ := engineTurn_microStepped hb h
    · exact ⟨e, v, n, rfl⟩
    · simp [hb] at hbt

/-- Settles O9: an issue is a `start`, and a step of the running command is a finish or an advance. -/
theorem commandFrame : Obligations.CommandFrame := by
  intro i s t h
  have hmicro : s.busy = true → t = s ∨ MicroStepped s t := fun hb => by
    obtain ⟨hidle, -⟩ | ⟨-, -, rfl⟩ | ⟨-, -, -, hfast⟩ | ⟨-, -, -, hchecked⟩ := exec_next h
    · simp [hb] at hidle
    · exact .inl rfl
    · exact .inr (fastMicroStep_microStepped hfast)
    · exact .inr (checkedMicroStep_microStepped hchecked)
  cases hb : s.busy with
  | false =>
    obtain rfl | ⟨w, rfl⟩ := instr_cases i
    · rw [exec_parseFast_idle hb] at h
      cases h
      simp
    · rw [exec_checkedInstr_idle w hb] at h
      cases h
      simp [checkedInstr_ne_fast]
  | true =>
    obtain rfl | ⟨e, v, n, rfl⟩ | ⟨acc, idx, bs, rfl⟩ := hmicro hb
    · simp [hb]
    · simp
    · simp [hb]

end Sys2Proof.Machine
end

section
/-! Proofs about one step of the machine: Host accesses to registers and input memory (R17 to R21, R33, R34, R40, R60),
reset (R30, R114), and what no step, or only some steps, can do (R44, R108, R109). -/

namespace Sys2Proof.Machine

/-! ### Decoding and the issue of a command (R25, R28, R54) -/

/-- Settles O1: the five values of R54's table are the encodings of the five commands. -/
theorem fiveCommandWordsDecode : Obligations.FiveCommandWordsDecode :=
  ⟨decode_encode .parseFast, decode_encode .parseChecked8, decode_encode .parseChecked16, decode_encode .parseChecked32,
    decode_encode .parseChecked64⟩

theorem tableWord_toNat (v : Word) : tableWord 64 v.toNat = v := by
  rw [tableWord, Nat.mod_eq_of_lt v.isLt, BitVec.ofNat_toNat, BitVec.setWidth_eq]

/-- The Host's turn with a CMD write next and BUSY = 0 is the decoded command's issue. -/
theorem hostTurn_issue {s : State} {v : Word} {i : Instr} {ops : List HostOp} (hh : s.host = .write 0x00 v :: ops)
    (hb : s.busy = false) (hd : decode v = .ok i) : hostTurn s = exec i { s with host := ops } := by
  rw [hostTurn_cons hh, hostStep_write, writeReg_cmd_idle (s := { s with host := ops }) v hb, issueCommand_ok _ hd]

/-- Settles O5: the turn is the schedule's, or the one that an empty schedule gives. -/
theorem stepRunsDecodedCommand : Obligations.StepRunsDecodedCommand := by
  refine ⟨fun s v i ops ts hh hts hb hd => ?_, fun s v i ops hh hts hb hd => ?_, fun s i hb => ?_, fun s ts hts hb => ?_,
    fun s hts hb => ?_⟩
  · rw [step_turn hts]
    exact hostTurn_issue (s := { s with turns := ts }) hh hb hd
  · rw [step_noTurn_idle hts hb]
    exact hostTurn_issue hh hb hd
  · have hd : decode (tableWord 64 (encode i).toNat) = .ok i := by rw [tableWord_toNat, decode_encode]
    rw [step_turn (s := s.withFetchWord 64 (encode i).toNat) rfl]
    exact hostTurn_issue (s := { s.withFetchWord 64 (encode i).toNat with turns := s.turns }) rfl hb hd
  · rw [step_turn hts]
    exact engineTurn_running (s := { s with turns := ts }) hb
  · rw [step_noTurn_busy hts hb]
    exact engineTurn_running hb

/-! ### Registers (R17 to R21, R60) -/

/-- Settles O11: STATUS is its fields appended, and each field is read off for each value of the three flags. -/
theorem statusLayout : Obligations.StatusLayout := by
  intro s
  unfold State.statusWord
  cases s.busy <;> cases s.done <;> cases s.err <;> decide

/-- Settles O12: the two writes of `writeReg` with BUSY = 0, and its one answer with BUSY = 1. -/
theorem sourceRegistersAreReadWrite : Obligations.SourceRegistersAreReadWrite := fun _ v =>
  ⟨fun hb => ⟨writeReg_srcAddr_idle v hb, writeReg_srcLen_idle v hb⟩,
    fun hb => ⟨writeReg_busy 0x08 v hb, writeReg_busy 0x10 v hb⟩, rfl, rfl⟩

/-- Settles O14: what `writeReg` answers at an offset that is none of the three writable ones. -/
theorem readOnlyWritesAreIgnored : Obligations.ReadOnlyWritesAreIgnored :=
  fun s _ v h00 h08 h10 => writeReg_readOnly v s h00 h08 h10

section
variable {s : State} {ops : List HostOp}

theorem hostTurn_writeSrcAddr {v : Word} (hh : s.host = .write 0x08 v :: ops) (hb : s.busy = false) :
    hostTurn s = .next { s with srcAddr := v, host := ops } := by
  rw [hostTurn_cons hh]
  exact writeReg_srcAddr_idle (s := { s with host := ops }) v hb

theorem hostTurn_writeSrcLen {v : Word} (hh : s.host = .write 0x10 v :: ops) (hb : s.busy = false) :
    hostTurn s = .next { s with srcLen := v, host := ops } := by
  rw [hostTurn_cons hh]
  exact writeReg_srcLen_idle (s := { s with host := ops }) v hb

theorem hostTurn_read {offset : Nat} (hh : s.host = .read offset :: ops) :
    hostTurn s = .next { s with reads := s.readReg offset :: s.reads, host := ops } := hostTurn_cons hh

/-- While BUSY = 1 WAIT stays the Host's next step. -/
theorem hostTurn_wait_busy (hh : s.host = .wait :: ops) (hb : s.busy = true) :
    hostTurn s = .next { s with reads := s.statusWord :: s.reads } := by
  rw [hostTurn_cons hh]
  change Host.Outcome.next (waitPoll { s with host := ops }) = _
  rw [waitPoll_busy (s := { s with host := ops }) hb, ← hh]
  rfl

theorem hostTurn_wait_idle (hh : s.host = .wait :: ops) (hb : s.busy = false) :
    hostTurn s = .next { s with reads := s.statusWord :: s.reads, host := ops } := by
  rw [hostTurn_cons hh]
  exact congrArg Host.Outcome.next (waitPoll_idle (s := { s with host := ops }) hb)

end

/-- Settles O15: the step is WAIT's poll, with BUSY = 1 and with BUSY = 0. -/
theorem waitPollsStatus : Obligations.WaitPollsStatus := by
  intro s ops ts hts hh
  rw [step_turn hts]
  exact ⟨hostTurn_wait_busy (s := { s with turns := ts }) hh, hostTurn_wait_idle (s := { s with turns := ts }) hh⟩

/-! ### Reset (R30, R114) -/

/-- Settles O16: each field of the reset state, and STATUS of its three flags. -/
theorem resetValues : Obligations.ResetValues :=
  ⟨rfl, rfl, rfl, rfl, rfl, rfl, rfl, by decide, rfl, rfl, rfl, rfl, rfl, rfl⟩

theorem statusWord_resetEvent (s : State) : s.resetEvent.statusWord = 0 := by simp [State.statusWord, ErrCode.code]

/-- Settles O17: the Host's reset is `resetEvent`, and so is reset as a turn, with that turn taken off. -/
theorem resetEventClearsTheBlock : Obligations.ResetEventClearsTheBlock := by
  intro s
  refine ⟨fun t h => ?_, ⟨_, rfl⟩, fun ts hts => ⟨_, step_turn hts⟩⟩
  obtain ⟨ts, rfl⟩ : ∃ ts, t = State.resetEvent { s with turns := ts } := by
    obtain h | ⟨ts, hts, h⟩ := h
    · cases h
      exact ⟨s.turns, rfl⟩
    · rw [step_turn hts] at h
      cases h
      exact ⟨ts, rfl⟩
  exact ⟨rfl, rfl, rfl, rfl, statusWord_resetEvent _, rfl, rfl, rfl, rfl, rfl, rfl, rfl, rfl, rfl, rfl, rfl, rfl⟩

/-! ### Host accesses to input memory (R33, R34) and the Engine's addresses (R40) -/

theorem hostMemRead_ordinary {s : State} {a : Addr} (h : s.kindAt a = .ordinary) :
    hostMemRead a s = .next (s.returned (zext64 (s.mem.read a))) := by simp [hostMemRead, State.memRead_ordinary h]

theorem hostMemRead_unreadable {s : State} {a : Addr} (h : s.kindAt a = .unreadable) : hostMemRead a s =
    .next { s.returned (zext64 (Config.freeByte s.draws)) with draws := s.draws + 1 } := by
  simp [hostMemRead, State.memRead_unreadable h]

theorem hostMemRead_device {s : State} {a : Addr} (h : s.kindAt a = .device) :
    hostMemRead a s = .refused (.deviceRead a) := by simp [hostMemRead, State.memRead_device h]

/-- Settles O54: the three kinds of an address. -/
theorem hostMemoryRead : Obligations.HostMemoryRead :=
  fun _ _ => ⟨hostMemRead_ordinary, fun h => ⟨_, hostMemRead_unreadable h⟩, hostMemRead_device⟩

/-- Settles O18: the laws of a read after a write, at the address written and elsewhere. -/
theorem hostMemoryWrite : Obligations.HostMemoryWrite := by
  intro s a b hm
  refine ⟨_, rfl, Memory.read_write_same hm a b, fun c hc => Memory.read_write_other s.mem b hc, rfl,
    Memory.write_wf hm a b, fun hk => ?_⟩
  have hread := hostMemRead_ordinary (s := { s with mem := s.mem.write a b }) hk
  rw [Memory.read_write_same hm] at hread
  exact hread

/-- Settles O21: the sum of 64-bit words. -/
theorem inputAddressesWrap : Obligations.InputAddressesWrap := by
  refine ⟨fun s i => BitVec.toNat_add _ _, fun s i h => BitVec.eq_of_toNat_eq ?_⟩
  rw [State.inputAddr, BitVec.toNat_add, h]
  rfl

/-! ### Where a step stops (R43, R108) -/

/-- An outcome that is a next state, or the refusal of a read at a device of `s`. -/
def StopsOnlyAtDevice (s : State) (o : Host.Outcome State Fault Refusal) : Prop :=
  (∃ t, o = .next t) ∨ ∃ a, o = .refused (.deviceRead a) ∧ s.kindAt a = .device

section
variable {s : State}

theorem fastMicroStep_stopsOnlyAtDevice : StopsOnlyAtDevice s (fastMicroStep s) := by
  obtain ⟨-, -, hm⟩ | ⟨-, -, hm⟩ | ⟨-, hm⟩ := fastMicroStep_cases s <;> rw [hm]
  · obtain ⟨-, hc⟩ | ⟨-, -, hc⟩ | ⟨k, -, hk, hc⟩ := fastChunk_cases s
    · exact .inl ⟨_, hc⟩
    · exact .inl ⟨_, hc⟩
    · exact .inr ⟨_, hc, hk⟩
  · obtain ⟨-, hc⟩ | ⟨-, hc⟩ | ⟨hk, hc⟩ := fastDigit_cases s
    · exact .inl ⟨_, hc⟩
    · exact .inl ⟨_, hc⟩
    · exact .inr ⟨_, hc, hk⟩
  · exact .inl ⟨_, rfl⟩

theorem checkedMicroStep_stopsOnlyAtDevice (w : Width) : StopsOnlyAtDevice s (checkedMicroStep w s) := by
  obtain ⟨-, hm⟩ | ⟨-, -, hm⟩ | ⟨-, hk, hm⟩ | ⟨-, -, e, -, hm⟩ | ⟨-, -, acc, -, hm⟩ := checkedMicroStep_cases w s
  · exact .inl ⟨_, hm⟩
  · exact .inl ⟨_, hm⟩
  · exact .inr ⟨_, hm, hk⟩
  · exact .inl ⟨_, hm⟩
  · exact .inl ⟨_, hm⟩

theorem engineTurn_stopsOnlyAtDevice : StopsOnlyAtDevice s (engineTurn s) := by
  cases hb : s.busy with
  | false => exact .inl ⟨_, engineTurn_idle hb⟩
  | true =>
    cases hm : s.mode with
    | fast => rw [engineTurn_fast hb hm]; exact fastMicroStep_stopsOnlyAtDevice
    | checked => rw [engineTurn_checked hb hm]; exact checkedMicroStep_stopsOnlyAtDevice s.width

/-- A register access completes always: the issue of a command reads no memory. -/
theorem writeReg_completes (offset : Nat) (v : Word) : ∃ t, writeReg offset v s = .next t := by
  obtain hw | ⟨-, -, hw⟩ | ⟨-, -, hw⟩ | ⟨hb, -, i, -, hw⟩ | ⟨-, -, -, hw⟩ := writeReg_cases offset v s <;> rw [hw]
  · exact ⟨_, rfl⟩
  · exact ⟨_, rfl⟩
  · exact ⟨_, rfl⟩
  · obtain rfl | ⟨w, rfl⟩ := instr_cases i
    · exact ⟨_, exec_parseFast_idle hb⟩
    · exact ⟨_, exec_checkedInstr_idle w hb⟩
  · exact ⟨_, rfl⟩

theorem hostStep_stopsOnlyAtDevice (op : HostOp) : StopsOnlyAtDevice s (hostStep op s) := by
  cases op with
  | write offset v => exact .inl (writeReg_completes offset v)
  | memRead a =>
    obtain ⟨-, hr⟩ | ⟨-, hr⟩ | ⟨hk, hr⟩ := hostMemRead_cases a s
    · exact .inl ⟨_, hr⟩
    · exact .inl ⟨_, hr⟩
    · exact .inr ⟨a, hr, hk⟩
  | read offset => exact .inl ⟨_, rfl⟩
  | memWrite a b => exact .inl ⟨_, rfl⟩
  | reset => exact .inl ⟨_, rfl⟩
  | wait => exact .inl ⟨_, rfl⟩

theorem hostTurn_stopsOnlyAtDevice : StopsOnlyAtDevice s (hostTurn s) := by
  cases hh : s.host with
  | nil => exact .inl ⟨_, hostTurn_nil hh⟩
  | cons op ops =>
    rw [hostTurn_cons hh]
    exact hostStep_stopsOnlyAtDevice (s := { s with host := ops }) op

end

/-- Settles O45: a step is one turn, and the agent's own step stops at a device or not at all. -/
theorem stepsStopOnlyAtDevices : Obligations.StepsStopOnlyAtDevices := by
  intro s
  obtain ⟨ts, -, hs⟩ := step_eq_runTurn s
  rw [hs]
  cases (nextTurn s).1 with
  | host => exact hostTurn_stopsOnlyAtDevice (s := { s with turns := ts })
  | engine => exact engineTurn_stopsOnlyAtDevice (s := { s with turns := ts })
  | reset => exact .inl ⟨_, rfl⟩

/-! ### What only some steps write (R44, R109) -/

theorem exec_frame {i : Instr} {s t : State} (h : exec i s = .next t) : t.mem = s.mem ∧ t.params = s.params := by
  obtain ⟨-, ⟨-, rfl⟩ | ⟨w, -, rfl⟩⟩ | ⟨-, -, rfl⟩ | ⟨-, -, -, hfast⟩ | ⟨-, -, -, hchecked⟩ := exec_next h
  · exact ⟨rfl, rfl⟩
  · exact ⟨rfl, rfl⟩
  · exact ⟨rfl, rfl⟩
  · obtain ⟨e, v, n, rfl⟩ | ⟨acc, idx, bs, rfl⟩ := fastMicroStep_microStepped hfast <;> exact ⟨rfl, rfl⟩
  · obtain ⟨e, v, n, rfl⟩ | ⟨acc, idx, bs, rfl⟩ := checkedMicroStep_microStepped hchecked <;> exact ⟨rfl, rfl⟩

/-- Of the Host's steps only a memory write writes input memory, and none writes the parameters. -/
theorem hostStep_mem {op : HostOp} {s t : State} (h : hostStep op s = .next t) :
    ((∀ a b, op ≠ .memWrite a b) → t.mem = s.mem) ∧ t.params = s.params := by
  obtain rfl | ⟨v, -, -, rfl⟩ | ⟨v, -, -, rfl⟩ | ⟨a, b, rfl, rfl⟩ | ⟨v, ops, n, -, rfl⟩ | ⟨-, rfl⟩ | ⟨v, i, -, -, -, he⟩ |
    ⟨v, e, -, -, -, rfl⟩ := hostStep_next h
  · exact ⟨fun _ => rfl, rfl⟩
  · exact ⟨fun _ => rfl, rfl⟩
  · exact ⟨fun _ => rfl, rfl⟩
  · exact ⟨fun hn => absurd rfl (hn a b), rfl⟩
  · exact ⟨fun _ => rfl, rfl⟩
  · exact ⟨fun _ => rfl, rfl⟩
  · exact ⟨fun _ => (exec_frame he).1, (exec_frame he).2⟩
  · exact ⟨fun _ => rfl, rfl⟩

/-- Settles O19: what a reset, an Engine turn and each Host step leave of memory and the parameters. -/
theorem onlyHostWritesChangeMemory : Obligations.OnlyHostWritesChangeMemory := by
  intro s t h
  obtain ⟨ts, rfl | ⟨-, rfl⟩ | ⟨-, he⟩ | ⟨hturn, op, ops, hh, ho⟩⟩ := step_next h
  · exact ⟨fun _ => rfl, rfl⟩
  · exact ⟨fun _ => rfl, rfl⟩
  · obtain ⟨-, -, hmem, hparams, -⟩ := engineTurn_frame he
    exact ⟨fun _ => hmem, hparams⟩
  · obtain ⟨hmem, hparams⟩ := hostStep_mem ho
    exact ⟨fun hn => hmem fun a b hop => hn hturn a b ops (by rw [hh, hop]), hparams⟩

/-- With BUSY = 0 only a CMD write and a reset write DONE, ERR or RESULT. -/
theorem hostStep_keeps_completion {op : HostOp} {s t : State} (hreset : op ≠ .reset) (hcmd : ∀ v, op ≠ .write 0x00 v)
    (h : hostStep op s = .next t) : t.done = s.done ∧ t.err = s.err ∧ t.result = s.result := by
  obtain rfl | ⟨v, -, -, rfl⟩ | ⟨v, -, -, rfl⟩ | ⟨a, b, -, rfl⟩ | ⟨v, ops, n, -, rfl⟩ | ⟨rfl, -⟩ | ⟨v, i, rfl, -⟩ |
    ⟨v, e, rfl, -⟩ := hostStep_next h
  · exact ⟨rfl, rfl, rfl⟩
  · exact ⟨rfl, rfl, rfl⟩
  · exact ⟨rfl, rfl, rfl⟩
  · exact ⟨rfl, rfl, rfl⟩
  · exact ⟨rfl, rfl, rfl⟩
  · exact absurd rfl hreset
  · exact absurd rfl (hcmd v)
  · exact absurd rfl (hcmd v)

/-- Settles O46: with BUSY = 0 the step is not a micro-step, and the Host's step is none of those that write the flags. -/
theorem errAndDoneAreSticky : Obligations.ErrAndDoneAreSticky := by
  intro s t hb hreset hhost h
  obtain ⟨ts, rfl | ⟨hturn, -⟩ | ⟨hbusy, -⟩ | ⟨hturn, op, ops, hh, ho⟩⟩ := step_next h
  · exact ⟨rfl, rfl, rfl⟩
  · exact absurd hturn hreset
  · simp [hb] at hbusy
  · obtain ⟨hopReset, hopCmd⟩ := hhost hturn op ops hh
    exact hostStep_keeps_completion (s := { s with host := ops, turns := ts }) hopReset hopCmd ho

end Sys2Proof.Machine
end

section
/-! Proofs of the invariants: R31 and what else every step keeps (R20, R100, R103), that every command finishes (R78, R99,
R127), and that a command depends on no byte outside its input (R41, R122). -/

namespace Sys2Proof.Machine

/-! ### What an Engine turn does to a state with the invariant of R31 -/

/-- What a command ends with: 0 with an error, else a value that its family can hold (R90, R103). -/
structure EndsWith (s : State) (e : ErrCode) (v : Word) : Prop where
  zeroOnError   : e ≠ .none → v = 0
  fastLt        : s.mode = .fast → v.toNat < 2 ^ 32
  checkedLeMaxW : s.mode = .checked → v.toNat ≤ maxW s.width

/-- What a micro-step that goes on has read and written: at least one and at most eight bytes of the input, within it; one
accepted digit in a checked command, and a chunk at the start or one byte in a fast one. -/
structure AdvancesBy (s : State) (acc idx : Word) (bs : List Byte) : Prop where
  idxEq      : idx.toNat = s.idx.toNat + bs.length
  lengthPos  : 0 < bs.length
  lengthLe   : bs.length ≤ 8
  idxLeLen   : idx.toNat ≤ s.len.toNat
  chunkFirst : s.mode = .fast → 8 ≤ s.len.toNat → 8 ≤ idx.toNat
  checked    : s.mode = .checked → acc.toNat ≤ maxW s.width ∧
    ∃ b, bs = [b] ∧ isDigit b = true ∧ acc.toNat = s.acc.toNat * 10 + digitValue b
  fast       : s.mode = .fast → (s.idx = 0 ∧ bs.length = 8 ∧ acc = swarCollapse (leWord bs)) ∨
    ∃ b, bs = [b] ∧ acc = fastStep s.acc b

/-- What an Engine turn answers while a command runs: the end of the command, with or without a draw; a move along its
input; or the refusal of a read at a device in the input. -/
inductive RunningOutcome (s : State) : Host.Outcome State Fault Refusal → Prop where
  | ends {e : ErrCode} {v : Word} {n : Nat} (h : EndsWith s e v) : RunningOutcome s (.next { s.finish e v with draws := n })
  | goesOn {acc idx : Word} {bs : List Byte} (h : AdvancesBy s acc idx bs) :
      RunningOutcome s (.next (s.advance acc idx bs))
  | refused {k : Nat} (hk : k < s.len.toNat) (hdev : s.kindAt (addrAt s.base k) = .device) :
      RunningOutcome s (.refused (.deviceRead (addrAt s.base k)))

theorem toNat_add_one {i n : Word} (h : i.toNat < n.toNat) : (i + 1).toNat = i.toNat + 1 := by
  have hn := n.isLt
  rw [BitVec.toNat_add, show (1 : Word).toNat = 1 from rfl, Nat.mod_eq_of_lt (by omega)]

theorem narrow32_lt (acc : Word) : (narrow32 acc).toNat < 2 ^ 32 := by
  rw [narrow32_toNat]
  exact Nat.mod_lt _ (by norm_num)

theorem zext64_lt (v : BitVec 32) : (zext64 v).toNat < 2 ^ 32 := by
  rw [BitVec.toNat_setWidth_of_le (by norm_num)]
  exact v.isLt

/-- An accepted digit is exact arithmetic within MAX_W (R67). -/
theorem checkedStep_ok_inv {w : Width} {acc acc' : Word} {b : Byte} (h : checkedStep w acc b = .ok acc') :
    isDigit b = true ∧ acc'.toNat = acc.toNat * 10 + digitValue b ∧ acc'.toNat ≤ maxW w := by
  obtain ⟨-, he⟩ | ⟨-, -, he⟩ | ⟨hd, ha, hok⟩ := checkedStep_cases w acc b
  · rw [he] at h; cases h
  · rw [he] at h; cases h
  · rw [hok] at h; cases h
    exact ⟨hd, toNat_accepted hd ha, toNat_accepted_le_maxW hd ha⟩

section
variable {s : State}

theorem endsWith_zero (e : ErrCode) : EndsWith s e 0 := ⟨fun _ => rfl, fun _ => by decide, fun _ => Nat.zero_le _⟩

theorem EngineInvariant.idx_lt_len (hi : EngineInvariant s) (h : s.idx ≠ s.len) : s.idx.toNat < s.len.toNat :=
  lt_of_le_of_ne hi.idxLeLen fun he => h (BitVec.eq_of_toNat_eq he)

theorem EngineInvariant.checkedMicroStep_outcome (hi : EngineInvariant s) (hb : s.busy = true) (hm : s.mode = .checked) :
    RunningOutcome s (checkedMicroStep s.width s) := by
  obtain ⟨-, h⟩ | ⟨-, -, h⟩ | ⟨hne, hk, h⟩ | ⟨-, -, e, -, h⟩ | ⟨hne, -, acc, hacc, h⟩ :=
    checkedMicroStep_cases s.width s <;> rw [h]
  · exact .ends (n := s.draws) ⟨fun hne => absurd rfl hne, by simp [hm], fun _ => hi.accLeMax hm hb⟩
  · exact .ends (n := s.draws) (endsWith_zero _)
  · rw [State.inputAddr_eq] at hk ⊢
    exact .refused (hi.idx_lt_len hne) hk
  · exact .ends (n := s.draws) (endsWith_zero e)
  · have hlt := hi.idx_lt_len hne
    have hidx := toNat_add_one hlt
    obtain ⟨hd, hval, hmax⟩ := checkedStep_ok_inv hacc
    exact .goesOn {
      idxEq := hidx
      lengthPos := by simp
      lengthLe := by simp
      idxLeLen := hidx ▸ hlt
      chunkFirst := by simp [hm]
      checked := fun _ => ⟨hmax, _, rfl, hd, hval⟩
      fast := by simp [hm] }

theorem fastChunk_outcome (h0 : s.idx = 0) (h8 : 8 ≤ s.len.toNat) (hm : s.mode = .fast) :
    RunningOutcome s (fastChunk s) := by
  obtain ⟨-, h⟩ | ⟨-, -, h⟩ | ⟨k, hk, hdev, h⟩ := fastChunk_cases s <;> rw [h]
  · exact .goesOn {
      idxEq := by simp [h0]
      lengthPos := by simp
      lengthLe := by simp
      idxLeLen := h8
      chunkFirst := fun _ _ => le_rfl
      checked := by simp [hm]
      fast := fun _ => .inl ⟨h0, by simp, rfl⟩ }
  · exact .ends (n := s.draws) (endsWith_zero _)
  · exact .refused (by omega) hdev

theorem EngineInvariant.fastDigit_outcome (hi : EngineInvariant s) (hb : s.busy = true) (hm : s.mode = .fast)
    (hn : ¬ (s.idx = 0 ∧ 8 ≤ s.len.toNat)) (hlt : s.idx.toNat < s.len.toNat) : RunningOutcome s (fastDigit s) := by
  obtain ⟨-, h⟩ | ⟨-, h⟩ | ⟨hdev, h⟩ := fastDigit_cases s <;> rw [h]
  · have hidx := toNat_add_one hlt
    refine .goesOn {
      idxEq := hidx
      lengthPos := by simp
      lengthLe := by simp
      idxLeLen := hidx ▸ hlt
      chunkFirst := fun _ h8 => ?_
      checked := by simp [hm]
      fast := fun _ => .inr ⟨_, rfl, rfl⟩ }
    obtain h0 | h0 := hi.chunkFirst hm hb h8
    · exact absurd ⟨h0, h8⟩ hn
    · omega
  · exact .ends (n := s.draws) (endsWith_zero _)
  · rw [State.inputAddr_eq] at hdev ⊢
    exact .refused hlt hdev

theorem EngineInvariant.fastMicroStep_outcome (hi : EngineInvariant s) (hb : s.busy = true) (hm : s.mode = .fast) :
    RunningOutcome s (fastMicroStep s) := by
  obtain ⟨h0, h8, h⟩ | ⟨hn, hlt, h⟩ | ⟨-, h⟩ := fastMicroStep_cases s <;> rw [h]
  · exact fastChunk_outcome h0 h8 hm
  · exact hi.fastDigit_outcome hb hm hn hlt
  · obtain ⟨-, hf⟩ | ⟨-, hf⟩ := fastFinish_cases s <;> rw [hf]
    · exact .ends (n := s.draws) ⟨fun hne => absurd rfl hne, fun _ => narrow32_lt _, by simp [hm]⟩
    · exact .ends ⟨fun hne => absurd rfl hne, fun _ => zext64_lt _, by simp [hm]⟩

theorem EngineInvariant.engineTurn_outcome (hi : EngineInvariant s) (hb : s.busy = true) :
    RunningOutcome s (engineTurn s) := by
  cases hm : s.mode with
  | checked => rw [engineTurn_checked hb hm]; exact hi.checkedMicroStep_outcome hb hm
  | fast => rw [engineTurn_fast hb hm]; exact hi.fastMicroStep_outcome hb hm

/-- What an Engine turn that answers a next state has done. -/
theorem EngineInvariant.engineTurn_next {t : State} (hi : EngineInvariant s) (h : engineTurn s = .next t) :
    (s.busy = false ∧ t = s) ∨ (∃ e v n, t = { s.finish e v with draws := n } ∧ EndsWith s e v) ∨
    ∃ acc idx bs, t = s.advance acc idx bs ∧ AdvancesBy s acc idx bs := by
  cases hb : s.busy with
  | false => rw [engineTurn_idle hb] at h; cases h; exact .inl ⟨rfl, rfl⟩
  | true =>
    have ho := hi.engineTurn_outcome hb
    rw [h] at ho
    cases ho with
    | ends he => exact .inr (.inl ⟨_, _, _, rfl, he⟩)
    | goesOn ha => exact .inr (.inr ⟨_, _, _, rfl, ha⟩)

/-! ### The Engine keeps the invariant of R31 -/

theorem EngineInvariant.finish (hi : EngineInvariant s) (e : ErrCode) (v : Word) (n : Nat) :
    EngineInvariant { s.finish e v with draws := n } where
  busyNotDone := by simp
  idxLeLen := hi.idxLeLen
  accLeMax := by simp
  chunkFirst := by simp

theorem EngineInvariant.advance (hi : EngineInvariant s) {acc idx : Word} {bs : List Byte}
    (ha : AdvancesBy s acc idx bs) : EngineInvariant (s.advance acc idx bs) where
  busyNotDone := hi.busyNotDone
  idxLeLen := ha.idxLeLen
  accLeMax := fun hm _ => (ha.checked hm).1
  chunkFirst := fun hm _ h8 => .inr (ha.chunkFirst hm h8)

theorem EngineInvariant.engineTurn {t : State} (hi : EngineInvariant s) (h : engineTurn s = .next t) :
    EngineInvariant t := by
  obtain ⟨-, rfl⟩ | ⟨e, v, n, rfl, -⟩ | ⟨acc, idx, bs, rfl, ha⟩ := hi.engineTurn_next h
  · exact hi
  · exact hi.finish e v n
  · exact hi.advance ha

/-- An Engine turn moves IDX forward, by at most a chunk (R31). -/
theorem EngineInvariant.engineTurn_idx {t : State} (hi : EngineInvariant s) (h : Machine.engineTurn s = .next t) :
    s.idx.toNat ≤ t.idx.toNat ∧ t.idx.toNat ≤ s.idx.toNat + 8 := by
  obtain ⟨-, rfl⟩ | ⟨e, v, n, rfl, -⟩ | ⟨acc, idx, bs, rfl, ha⟩ := hi.engineTurn_next h
  · exact ⟨le_rfl, Nat.le_add_right _ _⟩
  · exact ⟨le_rfl, Nat.le_add_right _ _⟩
  · have hidx := ha.idxEq
    have hle := ha.lengthLe
    rw [State.advance_idx]
    omega

end

/-! ### Every command finishes (R78, R99, R127) -/

/-- With fewer than `d` input bytes to come the command ends within `d` micro-steps: each that goes on reads a byte. -/
theorem EngineInvariant.finishes_within : ∀ (d : Nat) {s : State}, EngineInvariant s → s.busy = true → s.turns = [] →
    (∀ k, k < s.len.toNat → s.kindAt (addrAt s.base k) ≠ .device) → s.len.toNat < s.idx.toNat + d →
    ∃ n t, n ≤ d ∧ run n s = .next t ∧ t.busy = false ∧ t.done = true := by
  intro d
  induction d with
  | zero =>
    intro s hi _ _ _ hlt
    exact absurd hlt (Nat.not_lt.mpr hi.idxLeLen)
  | succ d ih =>
    intro s hi hb ht hdev hlt
    have hstep := step_noTurn_busy ht hb
    have ho := hi.engineTurn_outcome hb
    rw [← hstep] at ho
    generalize hs : step s = o at ho
    cases ho with
    | ends _ => exact ⟨1, _, by omega, run_succ 0 hs, rfl, rfl⟩
    | goesOn ha =>
      have hidx := ha.idxEq
      have hpos := ha.lengthPos
      obtain ⟨n, t, hle, hrun, hend⟩ := ih (hi.advance ha) hb ht hdev (by
        rw [State.advance_len, State.advance_idx]
        omega)
      exact ⟨n + 1, t, by omega, (run_succ n hs).trans hrun, hend⟩
    | refused hk hkind => exact absurd hkind (hdev _ hk)

/-- Settles O52: at most LEN bytes are to come. -/
theorem everyCommandFinishes : Obligations.EveryCommandFinishes :=
  fun s hi hb ht hdev => hi.finishes_within (s.len.toNat + 1) hb ht hdev (by omega)

/-! ### The invariant of every step -/

section
variable {s : State}

/-- The invariant says nothing of the source registers, the parameters, the Host, the schedule and the draws. -/
theorem Invariant.outside (h : Invariant s) (a n : Word) (p : Params) (hs : List HostOp) (ts : List Turn)
    (rs : List Word) (d : Nat) :
    Invariant { s with srcAddr := a, srcLen := n, params := p, host := hs, turns := ts, reads := rs, draws := d } :=
  { h with
    toEngineInvariant := { h.toEngineInvariant with } }

theorem Invariant.write (h : Invariant s) (a : Addr) (b : Byte) : Invariant { s with mem := s.mem.write a b } :=
  { h with
    toEngineInvariant := { h.toEngineInvariant with }
    memoryCanonical := Memory.write_wf h.memoryCanonical a b }

/-- A state with nothing consumed and no completion to show has the invariant. -/
theorem invariant_of_cleared (hidx : s.idx = 0) (hacc : s.acc = 0) (hcons : s.consumed = []) (hdone : s.done = false)
    (herr : s.err = .none) (hm : Memory.wf s.mem) : Invariant s where
  busyNotDone := fun _ => hdone
  idxLeLen := by simp [hidx]
  accLeMax := by simp [hacc]
  chunkFirst := fun _ _ _ => .inl hidx
  errOnlyWhenDone := fun _ => herr
  resultOnError := fun h => absurd herr h
  resultFast := by simp [hdone]
  resultChecked := by simp [hdone]
  consumedLength := by simp [hcons, hidx]
  consumedDigits := by simp [hcons, hacc]
  consumedFast := by simp [hcons, hacc]
  memoryCanonical := hm

theorem Invariant.resetEvent (hm : Memory.wf s.mem) : Invariant s.resetEvent :=
  invariant_of_cleared rfl rfl rfl rfl rfl hm

theorem Invariant.startFast (h : Invariant s) : Invariant s.startFast :=
  invariant_of_cleared rfl rfl rfl rfl rfl h.memoryCanonical

theorem Invariant.startChecked (h : Invariant s) (w : Width) : Invariant (s.startChecked w) :=
  invariant_of_cleared rfl rfl rfl rfl rfl h.memoryCanonical

/-- Settles O47: the reset state is a reset event on the memory with nothing listed. -/
theorem resetHasInvariant : Obligations.ResetHasInvariant := Invariant.resetEvent (s := State.reset) Memory.wf_nil

theorem CleanEntry.invariant (h : CleanEntry s) : Invariant s := by
  obtain ⟨hm, hs⟩ := h
  rw [hs]
  exact Invariant.resetEvent (s := { State.reset with mem := s.mem, params := s.params, host := s.host, turns := s.turns }) hm

theorem Invariant.finish (h : Invariant s) {e : ErrCode} {v : Word} (he : EndsWith s e v) (n : Nat) :
    Invariant { s.finish e v with draws := n } where
  toEngineInvariant := h.toEngineInvariant.finish e v n
  errOnlyWhenDone := by simp
  resultOnError := he.zeroOnError
  resultFast := fun hm _ => he.fastLt hm
  resultChecked := fun hm _ => he.checkedLeMaxW hm
  consumedLength := h.consumedLength
  consumedDigits := h.consumedDigits
  consumedFast := h.consumedFast
  memoryCanonical := h.memoryCanonical

/-- A fast micro-step that goes on keeps ACC at the value mod 2^64 of the digits consumed (R93). -/
theorem Invariant.advance_fast (h : Invariant s) {acc idx : Word} {bs : List Byte} (ha : AdvancesBy s acc idx bs)
    (hm : s.mode = .fast) (hdig : (s.consumed ++ bs).all isDigit = true) :
    acc.toNat = value (s.consumed ++ bs) % 2 ^ 64 := by
  obtain ⟨hidx, hlen, rfl⟩ | ⟨b, rfl, rfl⟩ := ha.fast hm
  · have hnil : s.consumed = [] := List.length_eq_zero_iff.mp (h.consumedLength.trans (by rw [hidx]; rfl))
    rw [hnil, List.nil_append] at hdig ⊢
    obtain ⟨hval, hle⟩ := swarCollapse_toNat hlen hdig
    rw [hval, Nat.mod_eq_of_lt (by omega)]
  · obtain ⟨hdigs, hd⟩ := all_isDigit_snoc.mp hdig
    rw [fastStep_toNat_of_isDigit _ hd, h.consumedFast hm hdigs, value_snoc]
    omega

theorem Invariant.advance (h : Invariant s) {acc idx : Word} {bs : List Byte} (ha : AdvancesBy s acc idx bs) :
    Invariant (s.advance acc idx bs) where
  toEngineInvariant := h.toEngineInvariant.advance ha
  errOnlyWhenDone := h.errOnlyWhenDone
  resultOnError := h.resultOnError
  resultFast := h.resultFast
  resultChecked := h.resultChecked
  consumedLength := by
    rw [State.advance_consumed, List.length_append, h.consumedLength, State.advance_idx, ha.idxEq]
  consumedDigits := fun hm => by
    obtain ⟨hdig, hval⟩ := h.consumedDigits hm
    obtain ⟨-, b, rfl, hd, hacc⟩ := ha.checked hm
    exact ⟨all_isDigit_snoc.mpr ⟨hdig, hd⟩, by rw [State.advance_acc, State.advance_consumed, value_snoc, hacc, hval]⟩
  consumedFast := h.advance_fast ha
  memoryCanonical := h.memoryCanonical

theorem Invariant.engineTurn {t : State} (h : Invariant s) (hn : engineTurn s = .next t) : Invariant t := by
  obtain ⟨-, rfl⟩ | ⟨e, v, n, rfl, he⟩ | ⟨acc, idx, bs, rfl, ha⟩ := h.toEngineInvariant.engineTurn_next hn
  · exact h
  · exact h.finish he n
  · exact h.advance ha

theorem Invariant.issue {i : Instr} {t : State} (h : Invariant s) (hb : s.busy = false) (hn : exec i s = .next t) :
    Invariant t := by
  obtain rfl | ⟨w, rfl⟩ := instr_cases i
  · rw [exec_parseFast_idle hb] at hn; cases hn; exact h.startFast
  · rw [exec_checkedInstr_idle w hb] at hn; cases hn; exact h.startChecked w

theorem Invariant.hostStep {op : HostOp} {t : State} (h : Invariant s) (hn : hostStep op s = .next t) : Invariant t := by
  obtain rfl | ⟨v, -, -, rfl⟩ | ⟨v, -, -, rfl⟩ | ⟨a, b, -, rfl⟩ | ⟨v, ops, n, -, rfl⟩ | ⟨-, rfl⟩ | ⟨v, i, -, hb, -, he⟩ |
    ⟨v, e, -, -, -, rfl⟩ := hostStep_next hn
  · exact h
  · exact h.outside v s.srcLen s.params s.host s.turns s.reads s.draws
  · exact h.outside s.srcAddr v s.params s.host s.turns s.reads s.draws
  · exact h.write a b
  · exact h.outside s.srcAddr s.srcLen s.params ops s.turns (v :: s.reads) n
  · exact Invariant.resetEvent h.memoryCanonical
  · exact h.issue hb he
  · exact h.finish (endsWith_zero _) s.draws

theorem Invariant.step {t : State} (h : Invariant s) (hn : step s = .next t) : Invariant t := by
  obtain ⟨ts, rfl | ⟨-, rfl⟩ | ⟨-, he⟩ | ⟨-, op, ops, -, ho⟩⟩ := step_next hn
  · exact h.outside s.srcAddr s.srcLen s.params s.host ts s.reads s.draws
  · exact Invariant.resetEvent h.memoryCanonical
  · exact (h.outside s.srcAddr s.srcLen s.params s.host ts s.reads s.draws).engineTurn he
  · exact (h.outside s.srcAddr s.srcLen s.params ops ts s.reads s.draws).hostStep ho

end

/-- Settles O48: each kind of step keeps it. -/
theorem stepKeepsInvariant : Obligations.StepKeepsInvariant := fun _ _ h => h.step

/-- Settles O49: a clean entry has the invariant, so every state that a run reaches has it. -/
theorem reachableStatesMeetR31 : Obligations.ReachableStatesMeetR31 := by
  intro n s t hs hrun
  have hi : EngineInvariant t := (run_keeps (P := Invariant) (fun _ _ h => h.step) n hs.invariant hrun).toEngineInvariant
  exact ⟨hi.busyNotDone, hi.idxLeLen, hi.accLeMax, hi.chunkFirst, engineTurn_idle, fun _ => hi.engineTurn_idx⟩

/-- Settles O50: the flags are those of an idle block, of a running command, or of a completion with one of five codes. -/
theorem statusValues : Obligations.StatusValues := by
  intro s h
  have hbusy := h.busyNotDone
  have herr := h.errOnlyWhenDone
  unfold State.statusWord
  cases hd : s.done with
  | false =>
    rw [herr hd]
    cases s.busy <;> decide
  | true =>
    have hb : s.busy = false := Bool.eq_false_iff.mpr fun hb => by simp [hbusy hb] at hd
    rw [hb]
    cases s.err <;> decide

/-! ### Bytes outside the input (R41, R122) -/

/-- `s` on another platform: other memory contents and other kinds of addresses. -/
def State.onPlatform (s : State) (m : Memory) (p : List Region) : State :=
  { s with mem := m, params := { s.params with regions := p } }

/-- The platform looks the same at an address. -/
def SameAt (s : State) (m : Memory) (p : List Region) (a : Addr) : Prop :=
  m.read a = s.mem.read a ∧ kindIn p a = s.kindAt a

section
variable {s : State} {m : Memory} {p : List Region}

theorem SameAt.memRead {a : Addr} (h : SameAt s m p a) : (s.onPlatform m p).memRead a = s.memRead a := by
  obtain ⟨hread, hkind⟩ := h
  have hk : (s.onPlatform m p).kindAt a = s.kindAt a := hkind
  have hm : (s.onPlatform m p).mem.read a = s.mem.read a := hread
  simp only [State.memRead, hk, hm]

theorem readBytes_onPlatform : ∀ (n : Nat) (a : Addr), (∀ k, k < n → SameAt s m p (addrAt a k)) →
    (s.onPlatform m p).readBytes a n = s.readBytes a n
  | 0, _, _ => rfl
  | n + 1, a, h => by
    have h0 : SameAt s m p a := by simpa using h 0 (by omega)
    have ih := readBytes_onPlatform n (a + 1) fun k hk => by
      rw [← addrAt_succ]
      exact h (k + 1) (by omega)
    rw [State.readBytes_succ, State.readBytes_succ, h0.memRead, ih]

theorem checkedMicroStep_onPlatform (w : Width) (hidx : s.idx.toNat ≤ s.len.toNat)
    (h : ∀ k, k < s.len.toNat → SameAt s m p (addrAt s.base k)) :
    checkedMicroStep w (s.onPlatform m p) = mapNext (·.onPlatform m p) (checkedMicroStep w s) := by
  by_cases hend : s.idx = s.len
  · rw [checkedMicroStep_finish hend, checkedMicroStep_finish (s := s.onPlatform m p) hend]
    rfl
  · have hlt : s.idx.toNat < s.len.toNat := lt_of_le_of_ne hidx fun he => hend (BitVec.eq_of_toNat_eq he)
    have hread : (s.onPlatform m p).memRead ((s.onPlatform m p).inputAddr (s.onPlatform m p).idx) =
        s.memRead (s.inputAddr s.idx) := (s.inputAddr_eq s.idx ▸ h _ hlt).memRead
    unfold checkedMicroStep
    rw [hread, if_neg hend, if_neg (show (s.onPlatform m p).idx ≠ (s.onPlatform m p).len from hend)]
    cases s.memRead (s.inputAddr s.idx) with
    | unreadable => rfl
    | device a => rfl
    | value b =>
      have hacc : (s.onPlatform m p).acc = s.acc := rfl
      simp only [hacc]
      cases checkedStep w s.acc b <;> rfl

theorem fastMicroStep_onPlatform (h : ∀ k, k < s.len.toNat → SameAt s m p (addrAt s.base k)) :
    fastMicroStep (s.onPlatform m p) = mapNext (·.onPlatform m p) (fastMicroStep s) := by
  obtain ⟨h0, h8, hm⟩ | ⟨hn, hlt, hm⟩ | ⟨hle, hm⟩ := fastMicroStep_cases s <;> rw [hm]
  · have hread : (s.onPlatform m p).readChunk (s.onPlatform m p).base = s.readChunk s.base :=
      readBytes_onPlatform 8 s.base fun k hk => h k (by omega)
    rw [fastMicroStep_chunk (s := s.onPlatform m p) h0 h8]
    unfold fastChunk
    rw [hread]
    cases s.readChunk s.base <;> rfl
  · have hread : (s.onPlatform m p).memRead ((s.onPlatform m p).inputAddr (s.onPlatform m p).idx) =
        s.memRead (s.inputAddr s.idx) := (s.inputAddr_eq s.idx ▸ h _ hlt).memRead
    rw [fastMicroStep_digit (s := s.onPlatform m p) hn hlt]
    unfold fastDigit
    rw [hread]
    cases s.memRead (s.inputAddr s.idx) <;> rfl
  · rw [fastMicroStep_finish (s := s.onPlatform m p) hle]
    have hcond : (s.onPlatform m p).params.fastContractOnly = s.params.fastContractOnly := rfl
    have hcons : (s.onPlatform m p).consumed = s.consumed := rfl
    simp only [fastFinish, hcond, hcons, mapNext]
    split_ifs <;> rfl

theorem engineTurn_onPlatform (hi : EngineInvariant s) (h : ∀ k, k < s.len.toNat → SameAt s m p (addrAt s.base k)) :
    engineTurn (s.onPlatform m p) = mapNext (·.onPlatform m p) (engineTurn s) := by
  cases hb : s.busy with
  | false =>
    rw [engineTurn_idle hb, engineTurn_idle (s := s.onPlatform m p) hb]
    rfl
  | true =>
    cases hm : s.mode with
    | fast =>
      rw [engineTurn_fast hb hm, engineTurn_fast (s := s.onPlatform m p) hb hm]
      exact fastMicroStep_onPlatform h
    | checked =>
      rw [engineTurn_checked hb hm, engineTurn_checked (s := s.onPlatform m p) hb hm]
      exact checkedMicroStep_onPlatform s.width hi.idxLeLen h

/-- No Engine turn moves the input. -/
theorem engineTurn_source {t : State} (h : engineTurn s = .next t) : t.base = s.base ∧ t.len = s.len := by
  cases hb : s.busy with
  | false => rw [engineTurn_idle hb] at h; cases h; exact ⟨rfl, rfl⟩
  | true => obtain ⟨e, v, n, rfl⟩ | ⟨acc, idx, bs, rfl⟩ := engineTurn_microStepped hb h <;> exact ⟨rfl, rfl⟩

end

/-- Settles O23: by induction on the turns; one Engine turn reads only the input and leaves its place, the platform and
R31's invariant for the next. -/
theorem bytesOutsideTheInputAreNotRead : Obligations.BytesOutsideTheInputAreNotRead := by
  intro n
  induction n with
  | zero => exact fun s m p _ _ _ => rfl
  | succ n ih =>
    intro s m p hi hts hsame
    have hstep : step s = engineTurn { s with turns := List.replicate n .engine } := step_turn hts
    have hstep' : step (s.onPlatform m p) = engineTurn (State.onPlatform { s with turns := List.replicate n .engine } m p) :=
      step_turn (s := s.onPlatform m p) hts
    have hi' : EngineInvariant { s with turns := List.replicate n .engine } := { hi with }
    rw [engineTurn_onPlatform hi' hsame, ← hstep] at hstep'
    change run (n + 1) (s.onPlatform m p) = mapNext (·.onPlatform m p) (run (n + 1) s)
    unfold run
    rw [hstep']
    cases h : step s with
    | fault f => cases f
    | refused r => rfl
    | next u =>
      rw [hstep] at h
      obtain ⟨-, -, hmem, hparams, -, hturns, -⟩ := engineTurn_frame h
      obtain ⟨hbase, hlen⟩ := engineTurn_source h
      refine ih u m p (hi'.engineTurn h) hturns ?_
      simpa only [hbase, hlen, hmem, State.kindAt, hparams] using hsame

end Sys2Proof.Machine
end

section
/-! Proofs about whole commands: where a checked parse stops and with what (R75, R78, R107), what a fast parse leaves (R87 to
R92, R99), and that the two agree on digits (R94). -/

namespace Sys2Proof.Machine

/-! ### Where a checked parse stops (R75) -/

theorem take_succ_of_getElem? {bs : List Byte} {k : Nat} {b : Byte} (hb : bs[k]? = some b) :
    bs.take (k + 1) = bs.take k ++ [b] := by
  rw [List.take_add_one, hb]
  rfl

theorem value_take_succ {bs : List Byte} {k : Nat} {b : Byte} (hb : bs[k]? = some b) :
    value (bs.take (k + 1)) = value (bs.take k) * 10 + digitValue b := by
  rw [take_succ_of_getElem? hb, value_snoc]

/-- No byte makes the value smaller. -/
theorem value_take_le (bs : List Byte) : ∀ k, value (bs.take k) ≤ value bs := by
  induction bs using List.reverseRecOn with
  | nil => simp
  | append_singleton bs b ih =>
    intro k
    by_cases hk : k ≤ bs.length
    · have hsnoc := value_snoc bs b
      have := ih k
      rw [List.take_append_of_le_length hk]
      omega
    · rw [List.take_of_length_le (by rw [List.length_append, List.length_singleton]; omega)]

section
variable {w : Width} {bs : List Byte}

theorem StopsAt.lt_length {i : Nat} (h : StopsAt w bs i) : i < bs.length := by
  obtain ⟨b, hb, -⟩ := h
  exact (List.getElem?_eq_some_iff.mp hb).1

/-- A byte that does not stop the parse is a digit, and after digits it keeps the value within MAX_W. -/
theorem accepted_of_not_stopsAt {k : Nat} {b : Byte} (hb : bs[k]? = some b) (h : ¬ StopsAt w bs k) :
    isDigit b = true ∧ ((bs.take k).all isDigit = true → value (bs.take (k + 1)) ≤ maxW w) := by
  refine ⟨?_, fun hdig => ?_⟩
  · by_contra hd
    exact h ⟨b, hb, .inl (Bool.eq_false_iff.mpr hd)⟩
  · by_contra hlt
    exact h ⟨b, hb, .inr ⟨hdig, Nat.not_le.mp hlt⟩⟩

/-- Bytes that do not stop the parse are digits with a value within MAX_W. -/
theorem take_accepted : ∀ {k : Nat}, k ≤ bs.length → (∀ j, j < k → ¬ StopsAt w bs j) →
    (bs.take k).all isDigit = true ∧ value (bs.take k) ≤ maxW w := by
  intro k
  induction k with
  | zero => exact fun _ _ => ⟨by simp, by simp⟩
  | succ k ih =>
    intro hk hstop
    obtain ⟨hdig, -⟩ := ih (by omega) fun j hj => hstop j (by omega)
    have hb := List.getElem?_eq_getElem (l := bs) (show k < bs.length by omega)
    obtain ⟨hd, hle⟩ := accepted_of_not_stopsAt hb (hstop k (by omega))
    refine ⟨?_, hle hdig⟩
    rw [take_succ_of_getElem? hb]
    exact all_isDigit_snoc.mpr ⟨hdig, hd⟩

theorem exists_firstStop {i : Nat} (h : StopsAt w bs i) : ∃ k, k ≤ i ∧ FirstStop w bs k := by
  classical
  exact ⟨Nat.find ⟨i, h⟩, Nat.find_min' _ h, Nat.find_spec ⟨i, h⟩, fun j hj => Nat.find_min ⟨i, h⟩ hj⟩

theorem exists_stopsAt_iff (hdig : bs.all isDigit = true) : (∃ i, StopsAt w bs i) ↔ maxW w < value bs := by
  constructor
  · rintro ⟨i, b, hb, hd | ⟨-, hlt⟩⟩
    · simp [List.all_eq_true.mp hdig b (List.mem_of_getElem? hb)] at hd
    · exact hlt.trans_le (value_take_le bs _)
  · intro hlt
    by_contra hno
    obtain ⟨-, hle⟩ := take_accepted (k := bs.length) le_rfl fun j _ hj => hno ⟨j, hj⟩
    rw [List.take_length] at hle
    omega

/-- The accumulator of a parse that has not stopped holds the value exactly. -/
theorem toNat_ofNat_value_take {k : Nat} (hk : k ≤ bs.length) (h : ∀ j, j < k → ¬ StopsAt w bs j) :
    (BitVec.ofNat 64 (value (bs.take k))).toNat = value (bs.take k) := by
  obtain ⟨-, hle⟩ := take_accepted hk h
  rw [BitVec.toNat_ofNat, Nat.mod_eq_of_lt (hle.trans_lt (maxW_lt w))]

/-- The digit step on byte `k` after bytes that did not stop the parse, where it does not stop it either. -/
theorem checkedStep_of_not_stopsAt {k : Nat} {b : Byte} (hb : bs[k]? = some b) (h : ∀ j, j ≤ k → ¬ StopsAt w bs j) :
    checkedStep w (BitVec.ofNat 64 (value (bs.take k))) b = .ok (BitVec.ofNat 64 (value (bs.take (k + 1)))) := by
  have hk := (List.getElem?_eq_some_iff.mp hb).1
  have hbefore : ∀ j, j < k → ¬ StopsAt w bs j := fun j hj => h j hj.le
  obtain ⟨hdig, -⟩ := take_accepted hk.le hbefore
  obtain ⟨hd, hle⟩ := accepted_of_not_stopsAt hb (h k le_rfl)
  have hacc := toNat_ofNat_value_take hk.le hbefore
  rw [checkedStep_accepted hd, hacc, value_take_succ hb]
  rw [accepts_iff_le_maxW (digitValue_le hd), hacc, ← value_take_succ hb]
  exact hle hdig

/-- The digit step on the first byte that stops the parse. -/
theorem checkedStep_of_firstStop {k : Nat} {b : Byte} (hb : bs[k]? = some b) (h : FirstStop w bs k) :
    checkedStep w (BitVec.ofNat 64 (value (bs.take k))) b =
      .error (if isDigit b = false then .invalidCharacter else .overflow) := by
  obtain ⟨⟨b', hb', hstop⟩, hbefore⟩ := h
  cases hb.symm.trans hb'
  cases hd : isDigit b with
  | false => exact checkedStep_nonDigit hd
  | true =>
    have hlt : maxW w < value (bs.take (k + 1)) := by simpa [hd] using hstop.resolve_left (by simp [hd]) |>.2
    rw [value_take_succ hb] at hlt
    refine checkedStep_rejected hd (accepts_false_of_maxW_lt (digitValue_le hd) ?_)
    rwa [toNat_ofNat_value_take (List.getElem?_eq_some_iff.mp hb).1.le hbefore]

end

/-! ### A checked command along its input -/

/-- `s` after the issue of the checked command of width `w` and `k` accepted bytes. -/
def State.checkedAt (s : State) (w : Width) (k : Nat) : State :=
  (s.startChecked w).advance (BitVec.ofNat 64 (value (s.input.take k))) (BitVec.ofNat 64 k) (s.input.take k)

/-- `s` after the issue of PARSE_FAST and `k` consumed bytes. -/
def State.fastAt (s : State) (k : Nat) : State :=
  s.startFast.advance (fastDatapath (s.input.take k)) (BitVec.ofNat 64 k) (s.input.take k)

section
variable {s : State} {w : Width}

@[simp] theorem State.length_input (s : State) : s.input.length = s.srcLen.toNat := length_bytesFrom _ _ _

theorem take_srcLen_input (s : State) : s.input.take s.srcLen.toNat = s.input :=
  List.take_of_length_le s.length_input.le

theorem State.getElem?_input {k : Nat} (h : k < s.srcLen.toNat) : s.input[k]? = some (s.mem.read (addrAt s.srcAddr k)) :=
  getElem?_bytesFrom _ _ h

/-- IDX is at LEN exactly at the end of the input, because LEN has 64 bits. -/
theorem State.ofNat_eq_srcLen {k : Nat} (h : k ≤ s.srcLen.toNat) : BitVec.ofNat 64 k = s.srcLen ↔ k = s.srcLen.toNat := by
  have hlen := s.srcLen.isLt
  rw [← BitVec.toNat_inj, BitVec.toNat_ofNat, Nat.mod_eq_of_lt (by omega)]

theorem State.toNat_ofNat_idx {k : Nat} (h : k ≤ s.srcLen.toNat) : (BitVec.ofNat 64 k).toNat = k := by
  have hlen := s.srcLen.isLt
  rw [BitVec.toNat_ofNat, Nat.mod_eq_of_lt (by omega)]

/-- One byte more joins those consumed, IDX moves on by one, and what was latched at the start stays. -/
theorem State.advance_advance (u : State) (acc idx acc' idx' : Word) (bs bs' : List Byte) :
    (u.advance acc idx bs).advance acc' idx' bs' = u.advance acc' idx' (bs ++ bs') := by
  simp [State.advance]

theorem engineTurn_checkedAt (s : State) (w : Width) (k : Nat) :
    engineTurn (s.checkedAt w k) = checkedMicroStep w (s.checkedAt w k) := engineTurn_checked rfl rfl

/-- Byte `k` is read and accepted. -/
theorem engineTurn_checkedAt_accepted {k : Nat} (hk : k < s.srcLen.toNat) (hord : s.kindAt (addrAt s.srcAddr k) = .ordinary)
    (h : ∀ j, j ≤ k → ¬ StopsAt w s.input j) : engineTurn (s.checkedAt w k) = .next (s.checkedAt w (k + 1)) := by
  have hb := s.getElem?_input hk
  have hne : BitVec.ofNat 64 k ≠ s.srcLen := mt (State.ofNat_eq_srcLen hk.le).mp hk.ne
  rw [engineTurn_checkedAt,
    checkedMicroStep_ok (s := s.checkedAt w k) hne hord (checkedStep_of_not_stopsAt hb h)]
  congr 1
  rw [State.checkedAt, State.advance_advance, State.checkedAt, take_succ_of_getElem? hb]
  congr 1
  rw [State.advance_idx, BitVec.ofNat_add]
  rfl

/-- Byte `k` is read and stops the parse. -/
theorem engineTurn_checkedAt_stopped {k : Nat} {b : Byte} (hb : s.input[k]? = some b)
    (hord : s.kindAt (addrAt s.srcAddr k) = .ordinary) (h : FirstStop w s.input k) : engineTurn (s.checkedAt w k) =
      .next ((s.checkedAt w k).finish (if isDigit b = false then .invalidCharacter else .overflow) 0) := by
  have hk : k < s.srcLen.toNat := s.length_input ▸ h.1.lt_length
  have hne : BitVec.ofNat 64 k ≠ s.srcLen := mt (State.ofNat_eq_srcLen hk.le).mp hk.ne
  obtain rfl : s.mem.read (addrAt s.srcAddr k) = b := Option.some.inj ((s.getElem?_input hk).symm.trans hb)
  rw [engineTurn_checkedAt]
  exact checkedMicroStep_error (s := s.checkedAt w k) hne hord (checkedStep_of_firstStop hb h)

/-- Byte `k` is not readable. -/
theorem engineTurn_checkedAt_unreadable {k : Nat} (hk : k < s.srcLen.toNat)
    (hun : s.kindAt (addrAt s.srcAddr k) = .unreadable) :
    engineTurn (s.checkedAt w k) = .next ((s.checkedAt w k).finish .busError 0) := by
  have hne : BitVec.ofNat 64 k ≠ s.srcLen := mt (State.ofNat_eq_srcLen hk.le).mp hk.ne
  rw [engineTurn_checkedAt]
  exact checkedMicroStep_unreadable (s := s.checkedAt w k) hne hun

/-- The input is used up. -/
theorem engineTurn_checkedAt_end (s : State) (w : Width) : engineTurn (s.checkedAt w s.srcLen.toNat) =
    .next ((s.checkedAt w s.srcLen.toNat).finish .none (BitVec.ofNat 64 (value s.input))) := by
  rw [engineTurn_checkedAt, checkedMicroStep_finish (s := s.checkedAt w s.srcLen.toNat)
    ((State.ofNat_eq_srcLen le_rfl).mpr rfl)]
  rw [State.checkedAt, State.advance_acc, take_srcLen_input]

theorem step_checkedAt (ht : s.turns = []) (k : Nat) : step (s.checkedAt w k) = engineTurn (s.checkedAt w k) :=
  step_noTurn_busy ht rfl

/-- With the schedule empty `k` accepted bytes take `k` micro-steps. -/
theorem run_checkedAt (ht : s.turns = []) : ∀ {k : Nat}, k ≤ s.srcLen.toNat →
    (∀ j, j < k → s.kindAt (addrAt s.srcAddr j) = .ordinary ∧ ¬ StopsAt w s.input j) →
    run k (s.startChecked w) = .next (s.checkedAt w k) := by
  intro k
  induction k with
  | zero => exact fun _ _ => rfl
  | succ k ih =>
    intro hk h
    have hstep := engineTurn_checkedAt_accepted (w := w) hk (h k (by omega)).1 fun j hj => (h j (by omega)).2
    exact run_snoc (ih (by omega) fun j hj => h j (by omega)) ((step_checkedAt ht k).trans hstep)

theorem run_checked_stopped (ht : s.turns = []) {i : Nat} {b : Byte} (h : FirstStop w s.input i)
    (hb : s.input[i]? = some b) (hord : ∀ j, j ≤ i → s.kindAt (addrAt s.srcAddr j) = .ordinary) :
    run (i + 1) (s.startChecked w) =
      .next ((s.checkedAt w i).finish (if isDigit b = false then .invalidCharacter else .overflow) 0) := by
  have hi : i < s.srcLen.toNat := s.length_input ▸ h.1.lt_length
  have hrun := run_checkedAt (w := w) ht hi.le fun j hj => ⟨hord j hj.le, h.2 j hj⟩
  exact run_snoc hrun ((step_checkedAt ht i).trans (engineTurn_checkedAt_stopped hb (hord i le_rfl) h))

theorem run_checked_end (ht : s.turns = []) (hord : s.InputOrdinary) (h : ∀ i, ¬ StopsAt w s.input i) :
    run (s.srcLen.toNat + 1) (s.startChecked w) =
      .next ((s.checkedAt w s.srcLen.toNat).finish .none (BitVec.ofNat 64 (value s.input))) :=
  run_snoc (run_checkedAt ht le_rfl fun j hj => ⟨hord j hj, h j⟩)
    ((step_checkedAt ht _).trans (engineTurn_checkedAt_end s w))

/-- The value of an input that no byte stops is held exactly. -/
theorem toNat_ofNat_value (h : ∀ i, ¬ StopsAt w s.input i) : (BitVec.ofNat 64 (value s.input)).toNat = value s.input := by
  have hval := toNat_ofNat_value_take (w := w) (bs := s.input) le_rfl fun j _ => h j
  rwa [List.take_length] at hval

end

/-- Settles O28: the bytes before the stopping one, or all of them, are accepted one by one. -/
theorem checkedCommandOutcome : Obligations.CheckedCommandOutcome := by
  intro w s hb ht hord
  refine ⟨_, exec_checkedInstr_idle w hb, fun hno => ?_, fun i b hfirst hbyte => ?_⟩
  · exact ⟨_, run_checked_end ht hord hno, rfl, rfl, rfl, toNat_ofNat_value hno, rfl, rfl, rfl⟩
  · have hi : i < s.srcLen.toNat := s.length_input ▸ hfirst.1.lt_length
    exact ⟨_, run_checked_stopped ht hfirst hbyte fun j hj => hord j (by omega), rfl, rfl, rfl, rfl, rfl, rfl, rfl⟩

/-- Settles O31: the bytes before the first failing one are read and accepted, and none after it is read. -/
theorem lowestFailingByteWins : Obligations.LowestFailingByteWins := by
  intro w s hb ht
  refine ⟨_, exec_checkedInstr_idle w hb, fun i b hfirst hbyte hord => ?_, fun i hi hun hbefore => ?_⟩
  · exact ⟨_, run_checked_stopped ht hfirst hbyte hord, rfl, rfl, rfl, rfl⟩
  · have hrun := run_checkedAt ht hi.le hbefore
    exact ⟨_, run_snoc hrun ((step_checkedAt ht i).trans (engineTurn_checkedAt_unreadable hi hun)), rfl, rfl, rfl, rfl⟩

/-- Settles O29: on digits a byte stops the parse exactly when the value exceeds MAX_W, and it stops it by overflow. -/
theorem digitInputStopsExactlyOnOverflow : Obligations.DigitInputStopsExactlyOnOverflow := by
  refine ⟨fun w s hb ht hord hdig => ?_, fun w bs hdig => ⟨exists_stopsAt_iff hdig, fun hno k => ?_⟩⟩
  · by_cases hover : maxW w < value s.input
    · obtain ⟨j, hj⟩ := (exists_stopsAt_iff hdig).mpr hover
      obtain ⟨i, -, hfirst⟩ := exists_firstStop hj
      have hi : i < s.srcLen.toNat := s.length_input ▸ hfirst.1.lt_length
      have hbyte := List.getElem?_eq_getElem hfirst.1.lt_length
      have hd := List.all_eq_true.mp hdig _ (List.mem_of_getElem? hbyte)
      have hrun := run_checked_stopped ht hfirst hbyte fun j hj => hord j (by omega)
      rw [if_neg (by simp [hd])] at hrun
      exact ⟨_, _, i + 1, exec_checkedInstr_idle w hb, by omega, hrun, rfl, rfl, by simp [hover], fun _ => rfl,
        fun hle => absurd hover (Nat.not_lt.mpr hle)⟩
    · have hno : ∀ i, ¬ StopsAt w s.input i := fun i hi => hover ((exists_stopsAt_iff hdig).mp ⟨i, hi⟩)
      exact ⟨_, _, _, exec_checkedInstr_idle w hb, le_rfl, run_checked_end ht hord hno, rfl, rfl, by simp [hover],
        fun h => absurd h hover, fun _ => ⟨rfl, toNat_ofNat_value hno⟩⟩
  · have hle : value bs ≤ maxW w := Nat.not_lt.mp fun hlt => by
      obtain ⟨i, hi⟩ := (exists_stopsAt_iff hdig).mpr hlt
      exact hno i hi
    exact (value_take_le bs k).trans hle

/-! ### A fast command along its input -/

section
variable {s : State}

theorem engineTurn_fastAt (s : State) (k : Nat) : engineTurn (s.fastAt k) = fastMicroStep (s.fastAt k) :=
  engineTurn_fast rfl rfl

theorem step_fastAt (ht : s.turns = []) (k : Nat) : step (s.fastAt k) = engineTurn (s.fastAt k) :=
  step_noTurn_busy ht rfl

/-- The first eight bytes are one chunk. -/
theorem engineTurn_fastAt_chunk (h8 : 8 ≤ s.srcLen.toNat) (hord : s.InputOrdinary) :
    engineTurn (s.fastAt 0) = .next (s.fastAt 8) := by
  have hbytes : bytesFrom s.mem s.srcAddr 8 = s.input.take 8 := (take_bytesFrom _ _ h8).symm
  have hacc : fastDatapath (s.input.take 8) = swarCollapse (leWord (s.input.take 8)) :=
    fastDatapath_of_length_eight (by simp [h8])
  have hord8 : ∀ k, k < 8 → (s.fastAt 0).kindAt (addrAt (s.fastAt 0).base k) = .ordinary := fun k hk => hord k (by omega)
  rw [engineTurn_fastAt, fastMicroStep_chunk (s := s.fastAt 0) rfl h8, fastChunk_ordinary hord8]
  change Host.Outcome.next ((s.fastAt 0).advance (swarCollapse (leWord (bytesFrom s.mem s.srcAddr 8))) 8
    (bytesFrom s.mem s.srcAddr 8)) = _
  rw [hbytes, ← hacc]
  rfl

/-- A byte after the chunk, or of an input too short for one, is one digit step. -/
theorem engineTurn_fastAt_digit {k : Nat} (hk : k < s.srcLen.toNat) (hno : s.srcLen.toNat < 8 ∨ 8 ≤ k)
    (hord : s.InputOrdinary) : engineTurn (s.fastAt k) = .next (s.fastAt (k + 1)) := by
  have hb := s.getElem?_input hk
  have hidx : (s.fastAt k).idx.toNat = k := State.toNat_ofNat_idx hk.le
  have hn : ¬ ((s.fastAt k).idx = 0 ∧ 8 ≤ (s.fastAt k).len.toNat) := by
    rintro ⟨h0, h8⟩
    have h8' : 8 ≤ s.srcLen.toNat := h8
    have hk0 : k = 0 := by rw [← hidx, h0]; rfl
    omega
  have hlen : (s.input.take k).length ≠ 7 := by
    rw [List.length_take, State.length_input]
    omega
  rw [engineTurn_fastAt, fastMicroStep_digit hn (by rw [hidx]; exact hk),
    fastDigit_ordinary (s := s.fastAt k) (hord k hk)]
  change Host.Outcome.next ((s.fastAt k).advance (fastStep (fastDatapath (s.input.take k))
    (s.mem.read (addrAt s.srcAddr k))) (BitVec.ofNat 64 k + 1) [s.mem.read (addrAt s.srcAddr k)]) = _
  rw [← fastDatapath_snoc _ hlen, State.fastAt, State.advance_advance, ← take_succ_of_getElem? hb, State.fastAt,
    BitVec.ofNat_add]
  rfl

theorem engineTurn_fastAt_end (s : State) :
    engineTurn (s.fastAt s.srcLen.toNat) = .next (fastFinish (s.fastAt s.srcLen.toNat)) := by
  have hidx : (s.fastAt s.srcLen.toNat).idx.toNat = s.srcLen.toNat := State.toNat_ofNat_idx le_rfl
  rw [engineTurn_fastAt, fastMicroStep_finish hidx.ge]

/-- With the schedule empty, digit steps from byte `k` on take one micro-step each. -/
theorem run_fastAt_digits (ht : s.turns = []) (hord : s.InputOrdinary) {m k : Nat}
    (hrun : run m s.startFast = .next (s.fastAt k)) (hno : s.srcLen.toNat < 8 ∨ 8 ≤ k) :
    ∀ j, k + j ≤ s.srcLen.toNat → run (m + j) s.startFast = .next (s.fastAt (k + j)) := by
  intro j
  induction j with
  | zero => exact fun _ => hrun
  | succ j ih =>
    intro hj
    have hstep := engineTurn_fastAt_digit (s := s) (k := k + j) (by omega) (by omega) hord
    exact run_snoc (ih (by omega)) ((step_fastAt ht _).trans hstep)

/-- The whole fast command: one chunk where there are eight bytes, and a digit step for each byte after it. -/
theorem run_fast (ht : s.turns = []) (hord : s.InputOrdinary) :
    run (fastMicroSteps s.srcLen.toNat) s.startFast = .next (fastFinish (s.fastAt s.srcLen.toNat)) := by
  have hend := (step_fastAt ht _).trans (engineTurn_fastAt_end s)
  unfold fastMicroSteps
  by_cases h8 : s.srcLen.toNat < 8
  · have hrun := run_fastAt_digits (m := 0) (k := 0) ht hord rfl (.inl h8) s.srcLen.toNat (by omega)
    rw [Nat.zero_add] at hrun
    rw [if_pos h8]
    exact run_snoc hrun hend
  · have hchunk : run 1 s.startFast = .next (s.fastAt 8) :=
      run_succ 0 ((step_fastAt ht 0).trans (engineTurn_fastAt_chunk (by omega) hord))
    have hrun := run_fastAt_digits ht hord hchunk (.inr le_rfl) (s.srcLen.toNat - 8) (by omega)
    rw [show 8 + (s.srcLen.toNat - 8) = s.srcLen.toNat by omega] at hrun
    rw [if_neg h8, show s.srcLen.toNat - 6 = 1 + (s.srcLen.toNat - 8) + 1 by omega]
    exact run_snoc hrun hend

theorem fastAt_end_consumed (s : State) : (s.fastAt s.srcLen.toNat).consumed = s.input := take_srcLen_input s

theorem fastAt_end_acc (s : State) : (s.fastAt s.srcLen.toNat).acc = fastDatapath s.input := by
  rw [State.fastAt, State.advance_acc, take_srcLen_input]

end

/-- Settles O38: the run is `run_fast`, and its last micro-step is one of the two forms of FINISH. -/
theorem fastCommandOutcome : Obligations.FastCommandOutcome := by
  intro s hb ht hord
  have hcond := fastFinish_cases (s.fastAt s.srcLen.toNat)
  have hparams : (s.fastAt s.srcLen.toNat).params = s.params := rfl
  rw [fastAt_end_consumed, hparams] at hcond
  refine ⟨_, _, exec_parseFast_idle hb, run_fast ht hord, ?_⟩
  obtain ⟨hc, hf⟩ | ⟨hc, hf⟩ := hcond <;> rw [hf]
  · refine ⟨rfl, rfl, rfl, fastAt_end_consumed s, fastAt_end_acc s, ?_, rfl, rfl, rfl⟩
    rw [if_neg hc, State.finish_result, fastAt_end_acc]
  · refine ⟨rfl, rfl, rfl, fastAt_end_consumed s, fastAt_end_acc s, ?_, rfl, rfl, rfl⟩
    rw [if_pos hc]
    rfl

/-- Settles O40: the outcomes of the two commands on digits, where PARSE_FAST takes no free draw. -/
theorem fastAndChecked32Agree : Obligations.FastAndChecked32Agree := by
  intro s hb ht hord hdig hdom
  obtain ⟨f₁, f, hf₁, hfrun, hfbusy, -, hferr, -, -, hfres, -⟩ := fastCommandOutcome s hb ht hord
  obtain ⟨c₁, c, n, hc₁, -, hcrun, hcbusy, -, hcerr, hczero, hcok⟩ :=
    digitInputStopsExactlyOnOverflow.1 .w32 s hb ht hord hdig
  have hmax : maxW .w32 = 4294967295 := by decide
  rw [hmax] at hcerr hczero hcok
  have hdraw : ¬ (contractOk s.input = false ∧ s.params.fastContractOnly = true) := by
    rintro ⟨hc, hp⟩
    obtain hp' | ⟨hpos, hle⟩ := hdom
    · simp [hp] at hp'
    · have hok := contractOk_iff.mpr ⟨hpos, List.all_eq_true.mp hdig, show value s.input < 2 ^ 32 by omega⟩
      simp [hok] at hc
  rw [if_neg hdraw] at hfres
  have hfval : f.result.toNat = value s.input % 2 ^ 32 := by rw [hfres, narrow32_fastDatapath_toNat hdig]
  refine ⟨f₁, f, c₁, c, n, hf₁, hfrun, hc₁, hcrun, hfbusy, hferr, hcbusy, fun hle => ?_, fun hlt => ?_⟩
  · obtain ⟨herr, hcval⟩ := hcok hle
    have hfexact : f.result.toNat = value s.input := by rw [hfval, Nat.mod_eq_of_lt (by omega)]
    exact ⟨herr, hfexact, BitVec.eq_of_toNat_eq (hcval.trans hfexact.symm)⟩
  · exact ⟨hcerr.mpr hlt, hczero hlt, hfval⟩

end Sys2Proof.Machine
end

section
/-! Proofs about the Host beside a running command: a write that races with a read (R47), and the PARSE program under every
schedule (R60, R94, R119). -/

namespace Sys2Proof.Machine

/-! ### A race while busy (R47 (b)) -/

/-- `s` after a Host memory write, with the Host's other steps and the rest of the schedule. -/
def State.written (s : State) (a : Addr) (b : Byte) (ops : List HostOp) (ts : List Turn) : State :=
  { s with mem := s.mem.write a b, host := ops, turns := ts }

theorem run_one (s : State) : run 1 s = step s := by
  unfold run
  cases step s <;> rfl

theorem step_memWrite {s : State} {a : Addr} {b : Byte} {ops : List HostOp} {ts : List Turn}
    (hh : s.host = .memWrite a b :: ops) (hts : s.turns = .host :: ts) : step s = .next (s.written a b ops ts) := by
  rw [step_turn hts]
  exact hostTurn_cons (s := { s with turns := ts }) hh

section
variable {s : State} {a : Addr} {b : Byte} {ops : List HostOp} {ts : List Turn}

/-- With the write first the micro-step reads the memory that it leaves. -/
theorem run_memWrite_engine (hh : s.host = .memWrite a b :: ops) (hts : s.turns = .host :: .engine :: ts) :
    run 2 s = engineTurn (s.written a b ops ts) := by
  rw [run_succ 1 (step_memWrite hh hts), run_one]
  exact step_turn (s := s.written a b ops (.engine :: ts)) rfl

/-- With the micro-step first it reads memory as it was. -/
theorem run_engine_memWrite {u : State} (hh : s.host = .memWrite a b :: ops) (hts : s.turns = .engine :: .host :: ts)
    (hu : engineTurn { s with turns := .host :: ts } = .next u) : run 2 s = .next (u.written a b ops ts) := by
  obtain ⟨-, -, -, -, hhost, hturns, -⟩ := engineTurn_frame hu
  have hstep : step s = .next u := (step_turn hts).trans hu
  rw [run_succ 1 hstep, run_one]
  exact step_memWrite (hhost.trans hh) hturns

end

/-- A checked DIGIT micro-step is that of the byte it reads. -/
theorem engineTurn_checkedDigitOf {s : State} (hb : s.busy = true) (hm : s.mode = .checked) (hne : s.idx ≠ s.len)
    (hord : s.kindAt (s.inputAddr s.idx) = .ordinary) :
    ∃ t, engineTurn s = .next t ∧ CheckedDigitOf s t (s.mem.read (s.inputAddr s.idx)) := by
  rw [engineTurn_checked hb hm]
  cases hc : checkedStep s.width s.acc (s.mem.read (s.inputAddr s.idx)) with
  | ok acc => exact ⟨_, checkedMicroStep_ok hne hord hc, (checkedDigitOf_ok hc).mpr ⟨hb, rfl, rfl, rfl⟩⟩
  | error e =>
    exact ⟨_, checkedMicroStep_error hne hord hc, (checkedDigitOf_error hc).mpr ⟨rfl, rfl, rfl, rfl, rfl, rfl⟩⟩

theorem engineTurn_fastDigit {s : State} (hb : s.busy = true) (hm : s.mode = .fast)
    (hn : ¬ (s.idx = 0 ∧ 8 ≤ s.len.toNat)) (hlt : s.idx.toNat < s.len.toNat)
    (hord : s.kindAt (s.inputAddr s.idx) = .ordinary) : engineTurn s = .next (s.advance
      (fastStep s.acc (s.mem.read (s.inputAddr s.idx))) (s.idx + 1) [s.mem.read (s.inputAddr s.idx)]) := by
  rw [engineTurn_fast hb hm, fastMicroStep_digit hn hlt, fastDigit_ordinary hord]

theorem engineTurn_fastChunk {s : State} (hb : s.busy = true) (hm : s.mode = .fast) (h0 : s.idx = 0)
    (h8 : 8 ≤ s.len.toNat) (hord : ∀ j, j < 8 → s.kindAt (addrAt s.base j) = .ordinary) : engineTurn s = .next
      (s.advance (swarCollapse (leWord (bytesFrom s.mem s.base 8))) 8 (bytesFrom s.mem s.base 8)) := by
  rw [engineTurn_fast hb hm, fastMicroStep_chunk h0 h8, fastChunk_ordinary hord]

/-- Settles O22: in each of the three micro-steps the bytes read are those of memory at the Engine's turn. -/
theorem raceReadsByStepOrder : Obligations.RaceReadsByStepOrder := by
  intro s b ops ts hwf hb
  refine ⟨fun hm hne hord hh => ?checked, fun hm hn hlt hord hh => ?digit, fun k hm h0 h8 hk hord hh => ?chunk⟩
  case checked =>
    refine ⟨fun hts => ?_, fun hts => ?_⟩
    · obtain ⟨t, he, hd⟩ := engineTurn_checkedDigitOf (s := s.written (s.inputAddr s.idx) b ops ts) hb hm hne hord
      have hread : (s.written (s.inputAddr s.idx) b ops ts).mem.read (s.inputAddr s.idx) = b :=
        Memory.read_write_same hwf _ b
      exact ⟨t, (run_memWrite_engine hh hts).trans he, hread ▸ hd⟩
    · obtain ⟨t, he, hd⟩ := engineTurn_checkedDigitOf (s := { s with turns := .host :: ts }) hb hm hne hord
      exact ⟨_, run_engine_memWrite hh hts he, hd⟩
  case digit =>
    refine ⟨fun hts => ?_, fun hts => ?_⟩
    · have he := engineTurn_fastDigit (s := s.written (s.inputAddr s.idx) b ops ts) hb hm hn hlt hord
      have hread : (s.written (s.inputAddr s.idx) b ops ts).mem.read
          ((s.written (s.inputAddr s.idx) b ops ts).inputAddr (s.written (s.inputAddr s.idx) b ops ts).idx) = b :=
        Memory.read_write_same hwf _ b
      rw [hread] at he
      exact ⟨_, (run_memWrite_engine hh hts).trans he, hb, rfl, rfl, rfl⟩
    · have he := engineTurn_fastDigit (s := { s with turns := .host :: ts }) hb hm hn hlt hord
      exact ⟨_, run_engine_memWrite hh hts he, hb, rfl, rfl, rfl⟩
  case chunk =>
    refine ⟨fun hts => ?_, fun hts => ?_⟩
    · have he := engineTurn_fastChunk (s := s.written (addrAt s.base k) b ops ts) hb hm h0 h8 hord
      have hread : bytesFrom (s.written (addrAt s.base k) b ops ts).mem (s.written (addrAt s.base k) b ops ts).base 8 =
          (bytesFrom s.mem s.base 8).set k b := bytesFrom_write hwf s.base b (by norm_num) hk
      rw [hread] at he
      exact ⟨_, (run_memWrite_engine hh hts).trans he, hb, rfl, rfl, rfl⟩
    · have he := engineTurn_fastChunk (s := { s with turns := .host :: ts }) hb hm h0 h8 hord
      exact ⟨_, run_engine_memWrite hh hts he, hb, rfl, rfl, rfl⟩

/-! ### The PARSE program (R60)

The Host's program passes through the phases of `ParsePhase`, by what is left of it and whether the command has ended.  A
turn of the Host takes the next step of the program or polls once more, and a turn of the Engine moves the running command
along its input or ends it. -/

/-- The command has ended with NONE and the value `v`. -/
structure EndedWith (v : Word) (t : State) : Prop where
  busy   : t.busy = false
  done   : t.done = true
  err    : t.err = .none
  result : t.result = v

/-- `t` runs PARSE_FAST or PARSE_CHECKED32 from `u`, with some of its input consumed. -/
def RunsFrom (c : Instr) (u t : State) : Prop :=
  ∃ k, k ≤ u.srcLen.toNat ∧
    ((c = .parseFast ∧ (k = 0 ∨ u.srcLen.toNat < 8 ∨ 8 ≤ k) ∧ t = u.fastAt k) ∨
      (c = .parseChecked32 ∧ t = u.checkedAt .w32 k))

/-- A state whose input is that of the program: its bytes are `bs`, all in ordinary memory and within the contract. -/
structure HoldsInput (bs : List Byte) (u : State) : Prop where
  input    : u.input = bs
  ordinary : u.InputOrdinary
  contract : contractOk bs = true

theorem EndedWith.statusWord {v : Word} {t : State} (h : EndedWith v t) : t.statusWord = 0x02 := by
  rw [State.statusWord, h.busy, h.done, h.err]
  decide

section
variable {u : State} {bs : List Byte}

theorem HoldsInput.all_isDigit (h : HoldsInput bs u) : bs.all isDigit = true := by
  obtain ⟨-, hdig, -⟩ := contractOk_iff.mp h.contract
  exact List.all_eq_true.mpr hdig

theorem HoldsInput.value_lt (h : HoldsInput bs u) : value bs < 2 ^ 32 := (contractOk_iff.mp h.contract).2.2

theorem HoldsInput.not_stopsAt (h : HoldsInput bs u) (i : Nat) : ¬ StopsAt .w32 u.input i := by
  have hmax : maxW .w32 = 2 ^ 32 - 1 := rfl
  have hlt := h.value_lt
  intro hi
  have hover := (exists_stopsAt_iff (h.input.symm ▸ h.all_isDigit)).mp ⟨i, hi⟩
  rw [h.input] at hover
  omega

/-- An input within the contract gives its value as the datapath's result (R93). -/
theorem HoldsInput.narrow32_fastDatapath (h : HoldsInput bs u) :
    narrow32 (fastDatapath bs) = BitVec.ofNat 64 (value bs) := by
  have hlt := h.value_lt
  refine BitVec.eq_of_toNat_eq ?_
  rw [narrow32_fastDatapath_toNat h.all_isDigit, BitVec.toNat_ofNat]
  omega

/-- A micro-step of the running command moves it along its input, or ends it with the value. -/
theorem RunsFrom.engineTurn {c : Instr} {t t' : State} (h : RunsFrom c u t) (hu : HoldsInput bs u)
    (hn : engineTurn t = .next t') : RunsFrom c u t' ∨ EndedWith (BitVec.ofNat 64 (value bs)) t' := by
  obtain ⟨k, hk, ⟨rfl, hpath, rfl⟩ | ⟨rfl, rfl⟩⟩ := h
  · obtain rfl | hlt := hk.eq_or_lt
    · rw [engineTurn_fastAt_end] at hn
      cases hn
      right
      have hok : contractOk (u.fastAt u.srcLen.toNat).consumed = true := by
        rw [fastAt_end_consumed, hu.input]
        exact hu.contract
      rw [fastFinish_datapath (.inr hok), fastAt_end_acc, hu.input, hu.narrow32_fastDatapath]
      exact ⟨rfl, rfl, rfl, rfl⟩
    · left
      by_cases hno : u.srcLen.toNat < 8 ∨ 8 ≤ k
      · rw [engineTurn_fastAt_digit hlt hno hu.ordinary] at hn
        cases hn
        exact ⟨k + 1, hlt, .inl ⟨rfl, by omega, rfl⟩⟩
      · obtain rfl : k = 0 := by omega
        rw [engineTurn_fastAt_chunk (by omega) hu.ordinary] at hn
        cases hn
        exact ⟨8, by omega, .inl ⟨rfl, by omega, rfl⟩⟩
  · obtain rfl | hlt := hk.eq_or_lt
    · rw [engineTurn_checkedAt_end] at hn
      cases hn
      right
      rw [hu.input]
      exact ⟨rfl, rfl, rfl, rfl⟩
    · rw [engineTurn_checkedAt_accepted hlt (hu.ordinary k hlt) fun j _ => hu.not_stopsAt j] at hn
      cases hn
      exact .inl ⟨k + 1, hlt, .inr ⟨rfl, rfl⟩⟩

/-- The schedule may be any: a command's course is that of its input. -/
theorem RunsFrom.withTurns {c : Instr} {t : State} (h : RunsFrom c u t) (ts : List Turn) :
    RunsFrom c { u with turns := ts } { t with turns := ts } := by
  obtain ⟨k, hk, ⟨rfl, hpath, rfl⟩ | ⟨rfl, rfl⟩⟩ := h
  · exact ⟨k, hk, .inl ⟨rfl, hpath, rfl⟩⟩
  · exact ⟨k, hk, .inr ⟨rfl, rfl⟩⟩

/-- A value that goes back to the Host does not touch the running command. -/
theorem RunsFrom.returned {c : Instr} {t : State} (h : RunsFrom c u t) (v : Word) :
    RunsFrom c { u with reads := v :: t.reads } (t.returned v) := by
  obtain ⟨k, hk, ⟨rfl, hpath, rfl⟩ | ⟨rfl, rfl⟩⟩ := h
  · exact ⟨k, hk, .inl ⟨rfl, hpath, rfl⟩⟩
  · exact ⟨k, hk, .inr ⟨rfl, rfl⟩⟩

theorem RunsFrom.frame {c : Instr} {t : State} (h : RunsFrom c u t) :
    t.mem = u.mem ∧ t.params = u.params ∧ t.host = u.host ∧ t.turns = u.turns := by
  obtain ⟨k, -, ⟨-, -, rfl⟩ | ⟨-, rfl⟩⟩ := h <;> exact ⟨rfl, rfl, rfl, rfl⟩

theorem RunsFrom.busy {c : Instr} {t : State} (h : RunsFrom c u t) : t.busy = true := by
  obtain ⟨k, -, ⟨-, -, rfl⟩ | ⟨-, rfl⟩⟩ := h <;> rfl

end

/-- The platform of `t` holds the input of the program, and its schedule no reset. -/
structure ServesParse (a n : Word) (bs : List Byte) (t : State) : Prop where
  bytes    : bytesFrom t.mem a n.toNat = bs
  ordinary : ∀ j, j < n.toNat → t.kindAt (addrAt a j) = .ordinary
  contract : contractOk bs = true
  noReset  : .reset ∉ t.turns

/-- Where the program PARSE c, a, n on the bytes `bs` is, by what is left of it. -/
inductive ParsePhase (c : Instr) (a n : Word) (bs : List Byte) (t : State) : Prop where
  | writesAddr (host : t.host = (HostLine.parse c a n).steps) (busy : t.busy = false)
  | writesLen (host : t.host = (HostLine.parse c a n).steps.drop 1) (busy : t.busy = false) (addr : t.srcAddr = a)
  | writesCmd (host : t.host = (HostLine.parse c a n).steps.drop 2) (busy : t.busy = false) (addr : t.srcAddr = a)
      (len : t.srcLen = n)
  | runs (host : t.host = (HostLine.parse c a n).steps.drop 3) (u : State)
      (command : RunsFrom c u t) (input : HoldsInput bs u)
  | ended (host : t.host = (HostLine.parse c a n).steps.drop 3) (command : EndedWith (BitVec.ofNat 64 (value bs)) t)
  | polled (host : t.host = (HostLine.parse c a n).steps.drop 4) (command : EndedWith (BitVec.ofNat 64 (value bs)) t)
      (status : t.reads[0]? = some 0x02)
  | returned (host : t.host = []) (busy : t.busy = false)
      (result : t.reads[0]? = some (BitVec.ofNat 64 (value bs))) (status : t.reads[1]? = some 0x02)

section
variable {c : Instr} {a n : Word} {bs : List Byte} {t t' : State}

theorem ServesParse.holdsInput (h : ServesParse a n bs t) (ha : t.srcAddr = a) (hn : t.srcLen = n) : HoldsInput bs t where
  input := by rw [State.input, ha, hn, h.bytes]
  ordinary := by
    subst ha hn
    exact h.ordinary
  contract := h.contract

theorem ServesParse.engineTurn (h : ServesParse a n bs t) (hn : engineTurn t = .next t') : ServesParse a n bs t' := by
  obtain ⟨-, -, hmem, hparams, -, hturns, -⟩ := engineTurn_frame hn
  exact ⟨hmem ▸ h.bytes, by simpa only [State.kindAt, hparams] using h.ordinary, h.contract, hturns ▸ h.noReset⟩

/-- The Engine has no turn to take but while the command runs. -/
theorem ParsePhase.engineTurn (h : ParsePhase c a n bs t) (hn : engineTurn t = .next t') : ParsePhase c a n bs t' := by
  have hidle : t.busy = false → t' = t := fun hb => by
    rw [engineTurn_idle hb] at hn
    cases hn
    rfl
  cases h with
  | runs host u command input =>
    obtain ⟨-, -, -, -, hhost, -⟩ := engineTurn_frame hn
    obtain hrun | hend := command.engineTurn input hn
    · exact .runs (hhost.trans host) u hrun input
    · exact .ended (hhost.trans host) hend
  | writesAddr host busy => rw [hidle busy]; exact .writesAddr host busy
  | writesLen host busy addr => rw [hidle busy]; exact .writesLen host busy addr
  | writesCmd host busy addr len => rw [hidle busy]; exact .writesCmd host busy addr len
  | ended host command => rw [hidle command.busy]; exact .ended host command
  | polled host command status => rw [hidle command.busy]; exact .polled host command status
  | returned host busy result status => rw [hidle busy]; exact .returned host busy result status

/-- The CMD write starts the command with none of its input consumed. -/
theorem runsFrom_of_issue {u : State} (hc : c = .parseFast ∨ c = .parseChecked32) (hb : u.busy = false)
    (h : exec c u = .next t) : RunsFrom c u t := by
  obtain rfl | rfl := hc
  · rw [exec_parseFast_idle hb] at h
    cases h
    exact ⟨0, Nat.zero_le _, .inl ⟨rfl, .inl rfl, rfl⟩⟩
  · cases (exec_checkedInstr_idle .w32 hb).symm.trans h
    exact ⟨0, Nat.zero_le _, .inr ⟨rfl, rfl⟩⟩

/-- The Host's turn takes the next step of the program, or polls once more while the command runs. -/
theorem ParsePhase.hostTurn (hc : c = .parseFast ∨ c = .parseChecked32) (hs : ServesParse a n bs t)
    (h : ParsePhase c a n bs t) (hn : hostTurn t = .next t') : ServesParse a n bs t' ∧ ParsePhase c a n bs t' := by
  obtain ⟨hbytes, hord, hok, hts⟩ := hs
  cases h with
  | writesAddr host busy =>
    cases (hostTurn_writeSrcAddr host busy).symm.trans hn
    exact ⟨⟨hbytes, hord, hok, hts⟩, .writesLen rfl busy rfl⟩
  | writesLen host busy addr =>
    cases (hostTurn_writeSrcLen host busy).symm.trans hn
    exact ⟨⟨hbytes, hord, hok, hts⟩, .writesCmd rfl busy addr rfl⟩
  | writesCmd host busy addr len =>
    have hissue := (hostTurn_issue host busy (decode_encode c)).symm.trans hn
    have hrun := runsFrom_of_issue hc (u := { t with host := (HostLine.parse c a n).steps.drop 3 }) busy hissue
    obtain ⟨hmem, hparams, hhost, hturns⟩ := hrun.frame
    exact ⟨⟨hmem ▸ hbytes, by simpa only [State.kindAt, hparams] using hord, hok, hturns ▸ hts⟩,
      .runs hhost _ hrun (ServesParse.holdsInput ⟨hbytes, hord, hok, hts⟩ addr len)⟩
  | runs host u command input =>
    cases (hostTurn_wait_busy host command.busy).symm.trans hn
    exact ⟨⟨hbytes, hord, hok, hts⟩,
      .runs host _ (command.returned t.statusWord) ⟨input.input, input.ordinary, hok⟩⟩
  | ended host command =>
    cases (hostTurn_wait_idle host command.busy).symm.trans hn
    exact ⟨⟨hbytes, hord, hok, hts⟩,
      .polled rfl ⟨command.busy, command.done, command.err, command.result⟩ (congrArg some command.statusWord)⟩
  | polled host command status =>
    cases (hostTurn_read host).symm.trans hn
    exact ⟨⟨hbytes, hord, hok, hts⟩, .returned rfl command.busy (congrArg some command.result) status⟩
  | returned host busy result status =>
    cases (hostTurn_nil host).symm.trans hn
    exact ⟨⟨hbytes, hord, hok, hts⟩, .returned host busy result status⟩

/-- Taking a turn off the schedule changes nothing else. -/
theorem ParsePhase.withTurns (h : ParsePhase c a n bs t) (ts : List Turn) :
    ParsePhase c a n bs { t with turns := ts } := by
  cases h with
  | writesAddr host busy => exact .writesAddr host busy
  | writesLen host busy addr => exact .writesLen host busy addr
  | writesCmd host busy addr len => exact .writesCmd host busy addr len
  | runs host u command input =>
    exact .runs host _ (command.withTurns ts) ⟨input.input, input.ordinary, input.contract⟩
  | ended host command => exact .ended host ⟨command.busy, command.done, command.err, command.result⟩
  | polled host command status => exact .polled host ⟨command.busy, command.done, command.err, command.result⟩ status
  | returned host busy result status => exact .returned host busy result status

/-- With no reset in the schedule a step is a turn of the Host or of the Engine, with the rest of the schedule. -/
theorem step_of_noReset {s : State} (h : .reset ∉ s.turns) : ∃ ts, .reset ∉ ts ∧
    (step s = Machine.hostTurn { s with turns := ts } ∨ step s = Machine.engineTurn { s with turns := ts }) := by
  cases hts : s.turns with
  | nil =>
    refine ⟨[], by simp, ?_⟩
    rw [← hts]
    obtain hb | hb := Bool.eq_false_or_eq_true s.busy
    · exact .inr (step_noTurn_busy hts hb)
    · exact .inl (step_noTurn_idle hts hb)
  | cons turn ts =>
    rw [hts, List.mem_cons, not_or] at h
    refine ⟨ts, h.2, ?_⟩
    cases turn with
    | host => exact .inl (step_turn hts)
    | engine => exact .inr (step_turn hts)
    | reset => exact absurd rfl h.1

theorem ParsePhase.step (hc : c = .parseFast ∨ c = .parseChecked32) (hs : ServesParse a n bs t)
    (h : ParsePhase c a n bs t) (hn : step t = .next t') : ServesParse a n bs t' ∧ ParsePhase c a n bs t' := by
  obtain ⟨ts, hts, hturn⟩ := step_of_noReset hs.noReset
  have hs' : ServesParse a n bs { t with turns := ts } := ⟨hs.bytes, hs.ordinary, hs.contract, hts⟩
  obtain hhost | hengine := hturn
  · exact (h.withTurns ts).hostTurn hc hs' (hhost.symm.trans hn)
  · have he := hengine.symm.trans hn
    exact ⟨hs'.engineTurn he, (h.withTurns ts).engineTurn he⟩

/-- Only the last phase has no step of the program left. -/
theorem ParsePhase.reads_of_host_nil (h : ParsePhase c a n bs t) (hh : t.host = []) :
    t.reads[0]? = some (BitVec.ofNat 64 (value bs)) ∧ t.reads[1]? = some 0x02 := by
  cases h with
  | returned host busy result status => exact ⟨result, status⟩
  | writesAddr host => cases host.symm.trans hh
  | writesLen host => cases host.symm.trans hh
  | writesCmd host => cases host.symm.trans hh
  | runs host => cases host.symm.trans hh
  | ended host => cases host.symm.trans hh
  | polled host => cases host.symm.trans hh

end

/-- Settles O53: every step keeps the program in one of its phases, and the last one has read the value. -/
theorem parseProgramReadsTheValue : Obligations.ParseProgramReadsTheValue := by
  intro c a n s t k hc hb hts hh hord hok hrun hend
  have hkept := run_keeps
    (P := fun u => ServesParse a n (bytesFrom s.mem a n.toNat) u ∧ ParsePhase c a n (bytesFrom s.mem a n.toNat) u)
    (fun _ _ h hn => ParsePhase.step hc h.1 h.2 hn) k ⟨⟨rfl, hord, hok, hts⟩, .writesAddr hh hb⟩ hrun
  exact hkept.2.reads_of_host_nil hend

end Sys2Proof.Machine
end
